-- ==== Sys2Proof/Word.lean ====
section
/-! DEFINITION. The word types of the block: a byte of 8 bits (R14) and the 32-bit unsigned `addr` and `size` operands
(R11). -/

namespace Sys2Proof

/-- A byte, bit 7 the most significant (R14). -/
abbrev Byte := BitVec 8

/-- An `addr` or `size` operand, unsigned (R11: ADDR_W = SIZE_W = 32). -/
abbrev Word := BitVec 32

end Sys2Proof
end

