-- ==== Sys2Proof/Config.lean ====
section
/-! DEFINITION. What an instance of the block fixes for its life (R7, R12, R24) and the free values that no rule fixes.
The free values are opaque constants without a body: nothing can be proved about the value of one. -/

namespace Sys2Proof

/-- ADDR_BITS with the proof that it is one of 9, 10, …, 19: a value outside is no configuration of this hardware
(R7, D29) and cannot be built. -/
structure AddrBits where
  val : Nat
  lo  : 9 ≤ val
  hi  : val ≤ 19
  deriving DecidableEq, Repr

/-- ADDR_BITS from a number: none where the number is outside 9..19 (R7). -/
def AddrBits.ofNat? (n : Nat) : Option AddrBits :=
  if h : 9 ≤ n ∧ n ≤ 19 then some ⟨n, h.1, h.2⟩ else none

/-- The three addressing modes (R8); exactly one is active in an instance. -/
inductive Mode where
  | a9
  | a16
  | a24
  deriving DecidableEq, Repr

/-- The configuration of an instance: ADDR_BITS (R7), WRITE_BOUND_CHECK and ASSERT_FATAL (R12). -/
structure Config where
  addrBits        : AddrBits
  writeBoundCheck : Bool
  assertFatal     : Bool
  deriving DecidableEq, Repr

/-- FREE VALUE: whether the oracle transport answers `ok` to its call number `n`, where the script gives no reply
(R50: any `ok` or `fail`; assumption 6). -/
opaque Config.freeOk : Nat → Bool

/-- FREE VALUE: byte `j` that the oracle transport yields in its call number `n`, where the script gives no such byte
(R50: any bytes; assumption 6). -/
opaque Config.freeByte : Nat → Nat → Byte

/-- FREE VALUE: whether the transport is up after its call number `n`, a TINIT or TDEINIT that it answered `fail`
(R164 (2): unknown; assumption 10) or that never returned (the spec is silent; DESIGN CHOICE, assumption 27). -/
opaque Config.freeUp : Nat → Bool

end Sys2Proof
end

