-- ==== Sys2Proof/Syntax.lean ====
section
/-! DEFINITION. The instructions: one constructor for each of the 22 rows of spec/opcode_table.json, and the two forms
in which they reach the block: a host request (R88) and one transaction of the sequencer (R70, R92). -/

namespace Sys2Proof

/-- The two instruction codes the frame assembler accepts (R104). -/
inductive FrameInstr where
  | read
  | write
  deriving DecidableEq, Repr

/-- One constructor per row of the opcode table. -/
inductive Instr where
  /-- WREN 0x06, write-enable, format I (R111). -/
  | wren
  /-- WRDI 0x04, write-disable, format I (R113). -/
  | wrdi
  /-- RDSR 0x05, read-status, format I and one received byte (R121). -/
  | rdsr
  /-- READ in format A9: a frame of 2 bytes (R72), then `n` received bytes (R75). -/
  | readA9 (addr : BitVec 9) (n : Nat)
  /-- READ in format A16: a frame of 3 bytes (R73), then `n` received bytes (R75). -/
  | readA16 (addr : BitVec 16) (n : Nat)
  /-- READ in format A24: a frame of 4 bytes (R74), then `n` received bytes (R75). -/
  | readA24 (addr : BitVec 24) (n : Nat)
  /-- WRITE in format A9, then the payload (R72, R75). -/
  | writeA9 (addr : BitVec 9) (data : List Byte)
  /-- WRITE in format A16, then the payload (R73, R75). -/
  | writeA16 (addr : BitVec 16) (data : List Byte)
  /-- WRITE in format A24, then the payload (R74, R75). -/
  | writeA24 (addr : BitVec 24) (data : List Byte)
  /-- WRSR 0x01, write-status: a code without format or semantics (R83). -/
  | wrsr
  /-- RDID 0x9F, read-id (R83). -/
  | rdid
  /-- SLEEP 0xB9 (R83). -/
  | sleep
  /-- FSTRD 0x0B, fast-read (R83). -/
  | fstrd
  /-- SNR 0xC3, read-serial (R83). -/
  | snr
  /-- Host request 0 (R161). -/
  | init
  /-- Host request 1 (R163). -/
  | deinit
  /-- Host request 2 (R165). -/
  | isInitialized
  /-- Host request 3 (R131). -/
  | read (addr size : Word)
  /-- Host request 4 (R141); `data` is exactly `size` bytes. -/
  | write (addr size : Word) (data : List Byte)
  /-- Host request 5 (R151). -/
  | erase (addr size : Word)
  /-- Host request 6, reserved (R185). -/
  | reserved6
  /-- Host request 7, reserved (R185). -/
  | reserved7
  deriving DecidableEq, Repr

/-- The host request record (R88): a 3-bit operation code and the operands, of which an operation ignores those it
does not use. -/
structure HostRequest where
  op   : BitVec 3
  addr : Word
  size : Word
  data : List Byte
  deriving DecidableEq, Repr

/-- One transaction on the wire (R92): the bytes transmitted in it, in order, and how many bytes are then received. -/
structure Transaction where
  out : List Byte
  rx  : Nat
  deriving DecidableEq, Repr

/-- What can arrive at the block between two operations. -/
inductive Input where
  /-- A host request (R88). -/
  | request (r : HostRequest)
  /-- One transaction given to the block's own sequencer: no host interface (R116), but how a wire row of the opcode
  table is run on its own (DESIGN CHOICE, assumption 4). -/
  | primitive (t : Transaction)
  /-- Reset (R210). -/
  | reset
  deriving DecidableEq, Repr

end Sys2Proof
end

