-- ==== Sys2Proof/WellFormed.lean ====
section
/-! DEFINITION. The checks on an instruction as syntax: the payload of a write has exactly `size` bytes (R88), a frame
is one of the instance's mode (R70), and a READ transaction receives at least one byte (R53). -/

namespace Sys2Proof

/-- The instruction is one that an instance in mode `m` can be given. -/
def Instr.wellFormed (m : Mode) : Instr → Bool
  | .wren => true
  | .wrdi => true
  | .rdsr => true
  | .readA9 _ n => (m == .a9) && decide (0 < n)
  | .readA16 _ n => (m == .a16) && decide (0 < n)
  | .readA24 _ n => (m == .a24) && decide (0 < n)
  | .writeA9 _ _ => m == .a9
  | .writeA16 _ _ => m == .a16
  | .writeA24 _ _ => m == .a24
  | .wrsr => true
  | .rdid => true
  | .sleep => true
  | .fstrd => true
  | .snr => true
  | .init => true
  | .deinit => true
  | .isInitialized => true
  | .read _ _ => true
  | .write _ size data => data.length == size.toNat
  | .erase _ _ => true
  | .reserved6 => true
  | .reserved7 => true

end Sys2Proof
end

