-- ==== Sys2Proof/Decode.lean ====
section
/-! DEFINITION. The encodings: instruction bytes (R81), addressing modes (R8), the frame assembler (R101), the
receiver's reading of a frame (R85, R89), the decoder of a host request and of a transaction, total and rejecting by
name, and the encoder written from the same tables. -/

namespace Sys2Proof

/-! ### Parameters that follow from ADDR_BITS (R8) -/

/-- MODE. Sixteen address bits take A24 (R8, C1). -/
def AddrBits.mode (b : AddrBits) : Mode :=
  if b.val = 9 then .a9 else if b.val ≤ 15 then .a16 else .a24

/-- MAX_ADDR + 1 = 2^ADDR_BITS, the number of bytes of the array (R40). -/
def AddrBits.arraySize (b : AddrBits) : Nat := 2 ^ b.val

/-- MAX_ADDR (R8). -/
def AddrBits.maxAddr (b : AddrBits) : Nat := b.arraySize - 1

/-- NADDR, the number of address bytes of a frame (R8). -/
def Mode.addrBytes : Mode → Nat
  | .a9 => 1
  | .a16 => 2
  | .a24 => 3

/-- FRAME_LEN, the number of bytes before the data phase (R8). -/
def Mode.frameLen (m : Mode) : Nat := 1 + m.addrBytes

/-- How many address bits a frame of the mode has room for (R76). -/
def Mode.fieldBits : Mode → Nat
  | .a9 => 9
  | .a16 => 16
  | .a24 => 24

/-! ### Instruction bytes (R81) -/

def codeWREN : Byte := 0x06#8
def codeWRDI : Byte := 0x04#8
def codeWRITE : Byte := 0x02#8
def codeREAD : Byte := 0x03#8
def codeRDSR : Byte := 0x05#8
def codeWRSR : Byte := 0x01#8
def codeRDID : Byte := 0x9F#8
def codeSLEEP : Byte := 0xB9#8
def codeFSTRD : Byte := 0x0B#8
def codeSNR : Byte := 0xC3#8

/-- The instruction byte of a frame before folding (R81, R104). -/
def FrameInstr.code : FrameInstr → Byte
  | .read => codeREAD
  | .write => codeWRITE

/-! ### The frame assembler (R100 to R107) -/

/-- FOLD_BIT (R9): the bit of the instruction byte that carries address bit 8 in mode A9. -/
def foldBit : Nat := 7

/-- The instruction byte with bit FOLD_BIT forced to `b`, whatever it was (R72, C3). -/
def forceFoldBit (code : Byte) (b : Bool) : Byte :=
  (code &&& ~~~(1#8 <<< foldBit)) ||| (if b then 1#8 <<< foldBit else 0#8)

/-- `addr[7:0]`. -/
def addrLow (addr : Word) : Byte := addr.extractLsb' 0 8

/-- `addr[15:8]`. -/
def addrMid (addr : Word) : Byte := addr.extractLsb' 8 8

/-- `addr[23:16]`. -/
def addrHigh (addr : Word) : Byte := addr.extractLsb' 16 8

/-- `Frame(instr, addr)` (R101): the exact bytes transmitted before the data phase. Surplus address bits that the
format has room for go out as they are, the others are dropped (R103). -/
def frame (m : Mode) (i : FrameInstr) (addr : Word) : List Byte :=
  match m with
  | .a9 => [forceFoldBit i.code (addr.getLsbD 8), addrLow addr]
  | .a16 => [i.code, addrMid addr, addrLow addr]
  | .a24 => [i.code, addrHigh addr, addrMid addr, addrLow addr]

/-! ### The receiver's reading (R85, R89) -/

/-- The 9-bit address of an A9 frame, `{f[0][7], f[1]}` (R89). -/
def addr9 (b0 b1 : Byte) : BitVec 9 := (BitVec.ofBool (b0.getLsbD foldBit) ++ b1 : BitVec (1 + 8))

/-- The 16-bit address of an A16 frame, `{f[1], f[2]}` (R89). -/
def addr16 (b1 b2 : Byte) : BitVec 16 := (b1 ++ b2 : BitVec (8 + 8))

/-- The 24-bit address of an A24 frame, `{f[1], f[2], f[3]}` (R89). -/
def addr24 (b1 b2 b3 : Byte) : BitVec 24 := (b1 ++ b2 ++ b3 : BitVec (8 + 8 + 8))

/-- The instruction part of byte 0: in mode A9 bit FOLD_BIT is ignored (R85). -/
def instrPart (m : Mode) (b0 : Byte) : Byte :=
  match m with
  | .a9 => forceFoldBit b0 false
  | .a16 => b0
  | .a24 => b0

/-- `DecodeAddr(MODE, f)` as a number (R89): none where `f` is shorter than a frame. -/
def decodeAddr (m : Mode) (f : List Byte) : Option Nat :=
  match m, f with
  | .a9, b0 :: b1 :: _ => some (addr9 b0 b1).toNat
  | .a16, _ :: b1 :: b2 :: _ => some (addr16 b1 b2).toNat
  | .a24, _ :: b1 :: b2 :: b3 :: _ => some (addr24 b1 b2 b3).toNat
  | _, _ => none

/-- `DecodeInstr(MODE, f)` (R89). -/
def decodeInstr (m : Mode) (f : List Byte) : Option Byte := f.head?.map (instrPart m)

/-! ### Decoding -/

/-- Why the decoder rejects an input. -/
inductive DecodeError where
  /-- A transaction without any byte: every transaction begins with an instruction byte (R70). -/
  | emptyTransaction
  /-- An instruction byte outside R81 as the mode reads it (R84, R85). -/
  | unknownInstruction (b : Byte)
  /-- Fewer bytes than the frame of the mode has (R70). -/
  | truncatedFrame
  /-- Transmitted bytes after an instruction that transmits no data (R71, R75). -/
  | trailingBytes
  /-- A number of received bytes that the instruction does not have (R53, R71, R75). -/
  | receiveCount
  /-- A write request whose `data` is not exactly `size` bytes (R88). -/
  | writeDataLength
  /-- Reset is no instruction (R210). -/
  | notAnInstruction
  deriving DecidableEq, Repr

/-- The instruction of a host request (R88); operands an operation does not use are ignored. -/
def decodeRequest (r : HostRequest) : Except DecodeError Instr :=
  match r.op.toNat with
  | 0 => .ok .init
  | 1 => .ok .deinit
  | 2 => .ok .isInitialized
  | 3 => .ok (.read r.addr r.size)
  | 4 => if r.data.length = r.size.toNat then .ok (.write r.addr r.size r.data) else .error .writeDataLength
  | 5 => .ok (.erase r.addr r.size)
  | 6 => .ok .reserved6
  | _ => .ok .reserved7

/-- A format I instruction `i` with nothing after its byte but `want` received bytes (R71). -/
def decodeBare (i : Instr) (want : Nat) (rest : List Byte) (rx : Nat) : Except DecodeError Instr :=
  if rest ≠ [] then .error .trailingBytes
  else if rx ≠ want then .error .receiveCount
  else .ok i

/-- A READ frame with the address taken: no transmitted data, at least one received byte (R53, R75). -/
def decodeRead (i : Nat → Instr) (rest : List Byte) (rx : Nat) : Except DecodeError Instr :=
  if rest ≠ [] then .error .trailingBytes
  else if rx = 0 then .error .receiveCount
  else .ok (i rx)

/-- A WRITE frame with the address taken: the rest is the payload, nothing is received (R75). -/
def decodeWrite (i : List Byte → Instr) (rest : List Byte) (rx : Nat) : Except DecodeError Instr :=
  if rx ≠ 0 then .error .receiveCount else .ok (i rest)

/-- A frame of READ or WRITE in the mode, told from byte 0 (R85). -/
def decodeFrame (m : Mode) (b0 : Byte) (rest : List Byte) (rx : Nat) : Except DecodeError Instr :=
  match m, rest with
  | .a9, b1 :: more =>
    if instrPart .a9 b0 = codeREAD then decodeRead (.readA9 (addr9 b0 b1)) more rx
    else if instrPart .a9 b0 = codeWRITE then decodeWrite (.writeA9 (addr9 b0 b1)) more rx
    else .error (.unknownInstruction b0)
  | .a16, b1 :: b2 :: more =>
    if b0 = codeREAD then decodeRead (.readA16 (addr16 b1 b2)) more rx
    else if b0 = codeWRITE then decodeWrite (.writeA16 (addr16 b1 b2)) more rx
    else .error (.unknownInstruction b0)
  | .a24, b1 :: b2 :: b3 :: more =>
    if b0 = codeREAD then decodeRead (.readA24 (addr24 b1 b2 b3)) more rx
    else if b0 = codeWRITE then decodeWrite (.writeA24 (addr24 b1 b2 b3)) more rx
    else .error (.unknownInstruction b0)
  | _, _ =>
    if instrPart m b0 = codeREAD ∨ instrPart m b0 = codeWRITE then .error .truncatedFrame
    else .error (.unknownInstruction b0)

/-- The instruction of a transaction (R81, R85). The five codes to which the spec gives no format and no data phase (R83)
are read as one byte with nothing received, and any other shape of them is rejected (DESIGN CHOICE, assumption 28). -/
def decodeTransaction (m : Mode) (t : Transaction) : Except DecodeError Instr :=
  match t.out with
  | [] => .error .emptyTransaction
  | b0 :: rest =>
    if b0 = codeWREN then decodeBare .wren 0 rest t.rx
    else if b0 = codeWRDI then decodeBare .wrdi 0 rest t.rx
    else if b0 = codeRDSR then decodeBare .rdsr 1 rest t.rx
    else if b0 = codeWRSR then decodeBare .wrsr 0 rest t.rx
    else if b0 = codeRDID then decodeBare .rdid 0 rest t.rx
    else if b0 = codeSLEEP then decodeBare .sleep 0 rest t.rx
    else if b0 = codeFSTRD then decodeBare .fstrd 0 rest t.rx
    else if b0 = codeSNR then decodeBare .snr 0 rest t.rx
    else decodeFrame m b0 rest t.rx

/-- The decoder of an instance in mode `m`. -/
def decode (m : Mode) : Input → Except DecodeError Instr
  | .request r => decodeRequest r
  | .primitive t => decodeTransaction m t
  | .reset => .error .notAnInstruction

/-! ### Encoding -/

/-- A request with operation code `op` (R88) and operands of zero. -/
def bareRequest (op : BitVec 3) : Input := .request ⟨op, 0#32, 0#32, []⟩

/-- The words of an instruction: a request record for a host operation (R88), the bytes of the transaction for a wire
instruction (R71 to R75). -/
def encode : Instr → Input
  | .wren => .primitive ⟨[codeWREN], 0⟩
  | .wrdi => .primitive ⟨[codeWRDI], 0⟩
  | .rdsr => .primitive ⟨[codeRDSR], 1⟩
  | .readA9 a n => .primitive ⟨frame .a9 .read (a.setWidth 32), n⟩
  | .readA16 a n => .primitive ⟨frame .a16 .read (a.setWidth 32), n⟩
  | .readA24 a n => .primitive ⟨frame .a24 .read (a.setWidth 32), n⟩
  | .writeA9 a d => .primitive ⟨frame .a9 .write (a.setWidth 32) ++ d, 0⟩
  | .writeA16 a d => .primitive ⟨frame .a16 .write (a.setWidth 32) ++ d, 0⟩
  | .writeA24 a d => .primitive ⟨frame .a24 .write (a.setWidth 32) ++ d, 0⟩
  | .wrsr => .primitive ⟨[codeWRSR], 0⟩
  | .rdid => .primitive ⟨[codeRDID], 0⟩
  | .sleep => .primitive ⟨[codeSLEEP], 0⟩
  | .fstrd => .primitive ⟨[codeFSTRD], 0⟩
  | .snr => .primitive ⟨[codeSNR], 0⟩
  | .init => bareRequest 0#3
  | .deinit => bareRequest 1#3
  | .isInitialized => bareRequest 2#3
  | .read a n => .request ⟨3#3, a, n, []⟩
  | .write a n d => .request ⟨4#3, a, n, d⟩
  | .erase a n => .request ⟨5#3, a, n, []⟩
  | .reserved6 => bareRequest 6#3
  | .reserved7 => bareRequest 7#3

/-! ### The opcode table's words -/

/-- The mode in which a table word of `nbits` bits is read: the frame length tells it (R70). -/
def tableMode (nbits : Nat) : Mode :=
  if nbits = 24 then .a16 else if nbits = 32 then .a24 else .a9

/-- Byte `i` of the number `w`, the first byte least significant. -/
def tableByte (w i : Nat) : Byte := BitVec.ofNat 8 (w / 256 ^ i)

/-- Where a table word begins as READ or WRITE in the mode, the bytes of a whole frame (zeros above `nbits`);
otherwise the bytes the table gives. -/
def tableBytes (nbits w : Nat) : List Byte :=
  let k := instrPart (tableMode nbits) (tableByte w 0)
  let n := if k = codeREAD ∨ k = codeWRITE then (tableMode nbits).frameLen else (nbits + 7) / 8
  (List.range n).map (tableByte w)

/-- How many bytes are received after a table word, for which the table has no bits: one for READ (R53 asks for at
least one) and for RDSR, else none. -/
def tableReceive (nbits w : Nat) : Nat :=
  if instrPart (tableMode nbits) (tableByte w 0) = codeREAD ∨ tableByte w 0 = codeRDSR then 1 else 0

/-- Whether a table word is read as a host operation code: below 8, and either narrower than a byte or no whole wire
instruction of one byte. The table's two spaces share the one-byte words 01, 04, 05 and 06, which are read as wire
words (assumption 15). -/
def isHostWord (nbits w : Nat) : Bool :=
  decide (w < 8) && (decide (nbits < 8) || (nbits == 8 && (w == 0 || w == 2 || w == 3 || w == 7)))

/-- A table word laid out as the block is given it. -/
def tableInput (nbits w : Nat) : Input :=
  if isHostWord nbits w then bareRequest (BitVec.ofNat 3 w)
  else .primitive ⟨tableBytes nbits w, tableReceive nbits w⟩

/-- The instruction the decoder reads from a word of the opcode table. -/
def decodeTableWord (nbits w : Nat) : Option Instr :=
  match decode (tableMode nbits) (tableInput nbits w) with
  | .ok i => some i
  | .error _ => none

end Sys2Proof
end

