-- ==== Sys2Proof/Machine/State.lean ====
section
/-! DEFINITION. State as plain data: the block's two bits and its position (R22, R23, R31), the state outside the block
that its rules depend on (R30), the reference device (R60), what the host has still to issue and what it was answered
(R234), and the model's own bookkeeping of where the transport's answers come from (R18, R50). -/

namespace Sys2Proof.Machine

/-- A chip-select policy (R51): assert-on-entry-only, release-on-exit-only, or both. -/
inductive Policy where
  | assert
  | release
  | both
  deriving DecidableEq, Repr

/-- One of the four transport calls with its arguments (R50). -/
inductive Call where
  | tinit
  | tdeinit
  | tx (bytes : List Byte) (cs : Policy)
  | rx (n : Nat) (cs : Policy)
  deriving DecidableEq, Repr

/-- What a transport call answers when it returns (R50, D6). -/
inductive Answer where
  | ok
  | fail
  deriving DecidableEq, Repr

/-- One entry of the trace (R17): a call, its answer (none: it never returned, R226) and the bytes an RX yielded. -/
structure TraceItem where
  call   : Call
  answer : Option Answer
  bytes  : List Byte
  deriving DecidableEq, Repr

/-- What the oracle transport does with one call: its answer (none: the call never returns, R226) and the bytes it
delivers to an RX. -/
structure Reply where
  answer : Option Answer
  bytes  : List Byte
  deriving DecidableEq, Repr

/-- The response record (R88): the status byte, the bytes of a read, and the flag of is_initialized (none for every
other operation: assumption 20). -/
structure Response where
  status : BitVec 8
  rdata  : List Byte
  flag   : Option Bool
  deriving DecidableEq, Repr

/-- An item of the open transaction on the reference device (R60): an input byte or an output byte. -/
inductive TxnItem where
  | inp (b : Byte)
  | out (b : Byte)
  deriving DecidableEq, Repr

/-- Which transport stands behind the block (R50): one whose answers are free inputs, or the reference device of
R60 to R65. -/
inductive Link where
  | oracle
  | reference
  deriving DecidableEq, Repr

/-- The position in an operation (R21, R31): idle, or waiting for ever for the answer to a call (R226). -/
inductive Position where
  | idle
  | waiting (c : Call)
  deriving DecidableEq, Repr

/-- What a wire primitive returned to its caller (R111, R113, R121): a status and the bytes received. -/
structure PrimResult where
  status : BitVec 8
  bytes  : List Byte
  deriving DecidableEq, Repr

/-- The bytes of the device array that differ from what an unlisted address reads as, addresses strictly rising. -/
abbrev Memory := List Host.Cell

/-- The whole machine. -/
structure State where
  /-- The constants of the instance (R7, R12, R24). No step changes them. -/
  config      : Config
  /-- The lifecycle bit (R22). -/
  initialized : Bool
  /-- Stopped after a failed assertion (R23). -/
  halted      : Bool
  /-- The position in an operation (R31, R226). -/
  position    : Position
  /-- MODEL'S OWN: the inputs that the host has still to issue, oldest first (R18). -/
  inbox       : List Input
  /-- The responses given, oldest first (R234). -/
  responses   : List Response
  /-- The transport calls made, oldest first (R17, R234). -/
  trace       : List TraceItem
  /-- MODEL'S OWN: which transport stands behind the block (R50). No step changes it. -/
  link        : Link
  /-- MODEL'S OWN: the oracle's replies to the coming calls; past its end the replies are free values. -/
  script      : List Reply
  /-- MODEL'S OWN: the number of the oracle's next call, the argument of the free values. -/
  draws       : Nat
  /-- The chip-select level, true where asserted (R30, R51). -/
  cs          : Bool
  /-- The transport is initialised (R30, R60). -/
  up          : Bool
  /-- The device's write-enable latch (R30, R60). -/
  wel         : Bool
  /-- The device array (R40, R60). -/
  mem         : Memory
  /-- The items of the open transaction (R60). -/
  txn         : List TxnItem
  /-- MODEL'S OWN: what the last wire primitive returned. -/
  primResult  : Option PrimResult
  deriving DecidableEq, Repr

/-- Why the machine stops. -/
inductive Fault where
  /-- Raised by step when a transport call has never returned and no input arrives: the block is stuck in
  mid-operation for ever (R226, U12). SAFE: the hardware does nothing more either. -/
  | stuckInTransportCall
  deriving DecidableEq, Repr

/-- Why the model gives no step. -/
inductive Refusal where
  /-- Raised by exec's arm of an instruction that has no meaning yet. SAFE: the model stops. -/
  | notModelled (mnemonic : String)
  /-- Raised by step where the decoder rejects the input, by the decoder's own name. SAFE: the model stops. -/
  | undecodable (e : DecodeError)
  /-- Raised by step when a request or primitive arrives while an operation is in progress (R220, U6). SAFE. -/
  | requestInOperation
  /-- Raised by step when reset arrives while an operation is in progress: no step (R210, U13). SAFE. -/
  | resetInOperation
  /-- Raised by a wire READ or WRITE in a format that is not the instance's MODE (R70, R85). SAFE. -/
  | frameOfAnotherMode
  /-- Raised by the five instructions that the block never emits, with their code (R83, U5). SAFE. -/
  | neverEmitted (code : Byte)
  /-- Raised by the reference device: TX or RX with the transport down (R61). SAFE. -/
  | deviceTransportDown
  /-- Raised by the reference device: a CS_ASSERT call with chip-select asserted (R61). SAFE. -/
  | deviceAssertedTwice
  /-- Raised by the reference device: a CS_RELEASE call with chip-select released (R61). SAFE. -/
  | deviceReleasedTwice
  /-- Raised by the reference device: an output request that has no meaning in the transaction (R63). SAFE. -/
  | deviceOutputRequest
  deriving DecidableEq, Repr

/-- The state after reset of an instance with the configuration `c`, with nothing issued: `initialized` and `halted`
are 0 and the position is idle (R31, R210); the rest is the start state that R60 gives the reference device
(DESIGN CHOICE, assumptions 6 to 8: the spec leaves the state outside the block open). -/
def State.resetOf (c : Config) : State where
  config      := c
  initialized := false
  halted      := false
  position    := .idle
  inbox       := []
  responses   := []
  trace       := []
  link        := .reference
  script      := []
  draws       := 0
  cs          := false
  up          := false
  wel         := false
  mem         := []
  txn         := []
  primResult  := none

/-- The configuration of the model's reset state: ADDR_BITS = 9 (DESIGN CHOICE, assumption 2) and both switches at
their default (R12). -/
def State.resetConfig : Config := ⟨⟨9, by decide, by decide⟩, false, false⟩

/-- The machine right after reset. -/
def State.reset : State := State.resetOf State.resetConfig

end Sys2Proof.Machine
end

