-- ==== Sys2Proof/Machine/Flags.lean ====
section
/-! DEFINITION. Status bytes (R86, R181), the transport's answers as statuses (R182), chip-select policies and their
codes (R51, R87), and the fields of a status-register snapshot (R27, R123). -/

namespace Sys2Proof.Machine

/-! ### Status codes (R86) -/

def statusOK : BitVec 8 := 0x00#8
def statusError : BitVec 8 := 0x01#8
def statusErrorTransport : BitVec 8 := 0x02#8
def statusErrorInit : BitVec 8 := 0x04#8
def statusErrorAddr : BitVec 8 := 0x08#8

/-- `tr` (R182): OK for `ok`, ERROR_TRANSPORT for `fail`. -/
def tr : Answer → BitVec 8
  | .ok => statusOK
  | .fail => statusErrorTransport

/-! ### Chip-select policies (R51, R87) -/

/-- The call asserts chip-select at its entry. -/
def Policy.asserts : Policy → Bool
  | .assert => true
  | .release => false
  | .both => true

/-- The call releases chip-select at its exit. -/
def Policy.releases : Policy → Bool
  | .assert => false
  | .release => true
  | .both => true

/-- The 2-bit code of a policy: bit 0 assert at entry, bit 1 release at exit (R87). -/
def Policy.code : Policy → BitVec 2
  | .assert => 0b01#2
  | .release => 0b10#2
  | .both => 0b11#2

/-- The policy of a code; 0b00 is reserved (R87). -/
def policyOf (c : BitVec 2) : Option Policy :=
  if c = 0b01#2 then some .assert
  else if c = 0b10#2 then some .release
  else if c = 0b11#2 then some .both
  else none

/-- The policy of a call that moves bytes. -/
def Call.policy : Call → Option Policy
  | .tinit => none
  | .tdeinit => none
  | .tx _ p => some p
  | .rx _ p => some p

/-- The chip-select level after the entry of a call made at level `cs` (R51). -/
def csAtEntry (c : Call) (cs : Bool) : Bool :=
  match c.policy with
  | some p => p.asserts || cs
  | none => cs

/-- The chip-select level after the exit of a call whose level inside was `cs` (R51). -/
def csAtExit (c : Call) (cs : Bool) : Bool :=
  match c.policy with
  | some p => !p.releases && cs
  | none => cs

/-! ### The status register's snapshot (R27, R123) -/

/-- WEL_BIT (R27, D13). -/
def welBit : Nat := 1

/-- `WEL(b)`. -/
def snapshotWel (b : Byte) : Bool := b.getLsbD welBit

/-- `BP(b)` = `b[3:2]`. -/
def snapshotBp (b : Byte) : BitVec 2 := b.extractLsb' 2 2

/-- `WPEN(b)` = `b[7]`. -/
def snapshotWpen (b : Byte) : Bool := b.getLsbD 7

/-- WEL of the one byte that a status read received (R121, R161). -/
def latchReadsSet (bytes : List Byte) : Bool :=
  match bytes with
  | [b] => snapshotWel b
  | _ => false

/-- The reference device's status register: `wel` at WEL_BIT, every other bit 0 (R60, R63). -/
def deviceStatus (wel : Bool) : Byte := if wel then 1#8 <<< welBit else 0#8

end Sys2Proof.Machine
end

