-- ==== Sys2Proof/Machine/Memory.lean ====
section
/-! DEFINITION. The device array as a list of cells in one canonical form: addresses strictly rising, and no cell that
holds what an unlisted address reads as. -/

namespace Sys2Proof.Machine

/-- What an address reads as when no cell lists it (DESIGN CHOICE, assumption 8; the start state of P1, P2 and P4). -/
def unlistedByte : Byte := 0x00#8

/-- `MemRead(addr, 1)` (R17). -/
def memRead : Memory → Nat → Byte
  | [], _ => unlistedByte
  | c :: rest, a => if c.1 = a then c.2 else memRead rest a

/-- A cell put in front, unless it holds what an unlisted address reads as. -/
def memCons (a : Nat) (b : Byte) (m : Memory) : Memory :=
  if b = unlistedByte then m else (a, b) :: m

/-- `MemWrite(addr, 1, b)` (R17), keeping the canonical form. -/
def memWrite : Memory → Nat → Byte → Memory
  | [], a, b => memCons a b []
  | c :: rest, a, b =>
    if c.1 < a then c :: memWrite rest a b
    else if c.1 = a then memCons a b rest
    else memCons a b (c :: rest)

/-- Every address listed in `m` is above `a`. -/
def memAbove (a : Nat) (m : Memory) : Bool := m.all fun c => decide (a < c.1)

/-- The canonical form. -/
def Memory.wf : Memory → Bool
  | [] => true
  | c :: rest => (c.2 != unlistedByte) && memAbove c.1 rest && Memory.wf rest

/-- Every listed address is below `size`: the array has no byte outside (R40). -/
def memWithin (size : Nat) (m : Memory) : Bool := m.all fun c => decide (c.1 < size)

end Sys2Proof.Machine
end

