-- ==== Sys2Proof/Machine/Operands.lean ====
section
/-! DEFINITION. What the operations do with their operands: the mode and bounds of the instance (R8), the precondition
tests of read, write and erase (R131, R141, R151), the erase payload (R153), and the addresses the reference device
takes from a transaction (R62, R64). -/

namespace Sys2Proof.Machine

/-- MODE of the instance (R8). -/
def State.mode (s : State) : Mode := s.config.addrBits.mode

/-- MAX_ADDR + 1 of the instance (R8). -/
def State.arraySize (s : State) : Nat := s.config.addrBits.arraySize

/-- `addr + size > MAX_ADDR + 1`, over the naturals and so without wrap-around (R16). -/
def State.pastEnd (s : State) (addr size : Word) : Bool := decide (s.arraySize < addr.toNat + size.toNat)

/-- ERASE_VALUE (R10). -/
def eraseValue : Byte := 0xFF#8

/-- The limit of an erase: `size < 256` (R10, R152). -/
def eraseLimit : Nat := 256

/-- ERASE_BUF_LEN (R10): the constant buffer of the erase value, of which an erase sends the first `size` bytes. -/
def eraseBuffer : List Byte := List.replicate 256 eraseValue

/-- `rep(0xFF, size)` (R151). -/
def erasePayload (size : Word) : List Byte := List.replicate size.toNat eraseValue

/-! ### The reference device's reading of a transaction (R62) -/

/-- The input bytes of a transaction, in order. -/
def txnInputs (t : List TxnItem) : List Byte :=
  t.filterMap fun i => match i with
    | .inp b => some b
    | .out _ => none

/-- How many output bytes a transaction has produced. -/
def txnOutputs (t : List TxnItem) : Nat :=
  (t.filter fun i => match i with
    | .inp _ => false
    | .out _ => true).length

/-- What the instruction byte of a transaction makes of it. -/
inductive TxnKind where
  | writeEnable
  | writeDisable
  | readStatus
  | read
  | write
  | other
  deriving DecidableEq, Repr

/-- The kind of a transaction from its input bytes (R62): in mode A9 bit 7 is ignored in matching READ and WRITE only. -/
def txnKind (m : Mode) (inputs : List Byte) : TxnKind :=
  match inputs with
  | [] => .other
  | i :: _ =>
    if i = codeWREN then .writeEnable
    else if i = codeWRDI then .writeDisable
    else if i = codeRDSR then .readStatus
    else if instrPart m i = codeREAD then .read
    else if instrPart m i = codeWRITE then .write
    else .other

/-- The address of data byte `j` of a transaction (R62, R64): the number its address bytes spell, plus `j`, modulo
2^ADDR_BITS; none before all address bytes were received. -/
def txnAddr (b : AddrBits) (inputs : List Byte) (j : Nat) : Option Nat :=
  (decodeAddr b.mode inputs).map fun a => (a + j) % b.arraySize

end Sys2Proof.Machine
end

