-- ==== Sys2Proof/Machine/Ops.lean ====
section
/-! DEFINITION. The named operations: single updates of the state, the reference device (R60 to R65), the oracle
transport (R50), one transport call with its place in the trace (R17), the precondition-failure mechanism (R184), the
response (R88), and the transactions and primitives that the operations are made of (R92, R111, R113, R121). -/

namespace Sys2Proof.Machine

/-- The result of a step of this machine. -/
abbrev Result := Host.Outcome State Fault Refusal

/-! ### Single updates of the state -/

/-- One more entry of the trace (R17). -/
def State.record (s : State) (e : TraceItem) : State := { s with trace := s.trace ++ [e] }

/-- One more response (R88, R234). -/
def State.answerHost (s : State) (r : Response) : State := { s with responses := s.responses ++ [r] }

/-- `initialized <- b` (R22). -/
def State.setInitialized (s : State) (b : Bool) : State := { s with initialized := b }

/-- `halted <- 1` (R23, R184). -/
def State.halt (s : State) : State := { s with halted := true }

/-- The effect of reset on the block (R210): nothing outside the block changes. -/
def State.resetBlock (s : State) : State := { s with initialized := false, halted := false }

/-- The inputs still to come. -/
def State.withInbox (s : State) (l : List Input) : State := { s with inbox := l }

/-- The block waits for the answer to `c` (R226). -/
def State.waitFor (s : State) (c : Call) : State := { s with position := .waiting c }

/-- The value a wire primitive returns. -/
def State.returnPrim (s : State) (r : PrimResult) : State := { s with primResult := some r }

/-- The chip-select level. -/
def State.setCs (s : State) (b : Bool) : State := { s with cs := b }

/-- The transport up or down. -/
def State.setUp (s : State) (b : Bool) : State := { s with up := b }

/-- One reply of the oracle's script used. -/
def State.nextReply (s : State) : State := { s with script := s.script.tail, draws := s.draws + 1 }

/-! ### The reference device (R60 to R65) -/

/-- One input byte (R61, R62): it joins the transaction, and in a WRITE after the frame it is stored if the latch is
set, else dropped. The latch changes only when chip-select is released (R65), so its value here is the one it had
when the transaction began. -/
def deviceInput (s : State) (b : Byte) : State :=
  let inputs := txnInputs s.txn
  let joined := { s with txn := s.txn ++ [.inp b] }
  if txnKind s.mode inputs = .write ∧ s.mode.frameLen ≤ inputs.length ∧ s.wel = true then
    match txnAddr s.config.addrBits inputs (inputs.length - s.mode.frameLen) with
    | some a => { joined with mem := memWrite s.mem a b }
    | none => joined
  else joined

/-- The byte that an output request produces (R63): the status register in a read-status transaction, the next byte of
the array in a READ whose address is complete; none elsewhere. -/
def deviceOutputByte (s : State) : Option Byte :=
  match txnKind s.mode (txnInputs s.txn) with
  | .readStatus => some (deviceStatus s.wel)
  | .read => (txnAddr s.config.addrBits (txnInputs s.txn) (txnOutputs s.txn)).map (memRead s.mem)
  | _ => none

/-- `n` output requests (R61, R63): the bytes and the state after them; none where one has no meaning. -/
def deviceOutputs : Nat → State → Option (List Byte × State)
  | 0, s => some ([], s)
  | n + 1, s =>
    match deviceOutputByte s with
    | none => none
    | some b =>
      match deviceOutputs n { s with txn := s.txn ++ [.out b] } with
      | none => none
      | some (bs, t) => some (b :: bs, t)

/-- The latch after the release of chip-select (R65). -/
def latchAfter (m : Mode) (txn : List TxnItem) (wel : Bool) : Bool :=
  match txnKind m (txnInputs txn) with
  | .writeEnable => if txn = [.inp codeWREN] then true else wel
  | .writeDisable => false
  | .write => if m.frameLen ≤ (txnInputs txn).length then false else wel
  | _ => wel

/-- Entry of a call at the device (R61): an asserting policy opens a transaction. -/
def deviceEntry (p : Policy) (s : State) : State :=
  if p.asserts then { s with cs := true, txn := [] } else s

/-- Exit of a call at the device (R61, R65): a releasing policy closes the transaction, after which none is open. -/
def deviceExit (p : Policy) (s : State) : State :=
  if p.releases then { s with wel := latchAfter s.mode s.txn s.wel, cs := false, txn := [] } else s

/-- Why the reference device gives a call that moves bytes no meaning (R61); none where it has one. -/
def deviceRefuses (p : Policy) (s : State) : Option Refusal :=
  if s.up = false then some .deviceTransportDown
  else if p = .assert ∧ s.cs = true then some .deviceAssertedTwice
  else if p = .release ∧ s.cs = false then some .deviceReleasedTwice
  else none

/-! ### Transport calls -/

/-- What a transport call comes to: an answer with the bytes received, no answer ever (R226), or a call that the
reference device gives no meaning to (R61, R63). -/
inductive CallResult where
  | answered (a : Answer) (bytes : List Byte) (s : State)
  | hung (s : State)
  | refused (r : Refusal)
  deriving DecidableEq, Repr

/-- The oracle's reply to its `i`-th coming call: the script's, or past its end an answer that is a free value. -/
def State.replyAt (s : State) (i : Nat) : Reply :=
  match s.script[i]? with
  | some r => r
  | none => ⟨some (if Config.freeOk (s.draws + i) then .ok else .fail), []⟩

/-- The `n` bytes that reply `r` to call number `d` delivers to an RX (R50, R235): its own, and free values where it
has too few. -/
def replyBytes (d : Nat) (r : Reply) (n : Nat) : List Byte :=
  (List.range n).map fun j => (r.bytes[j]?).getD (Config.freeByte d j)

/-- The bytes a call receives. -/
def oracleBytes (d : Nat) (c : Call) (r : Reply) : List Byte :=
  match c with
  | .rx n _ => replyBytes d r n
  | _ => []

/-- The transport up or down after a call of the oracle (R30): after a `fail` to TINIT or TDEINIT it is unknown
(R164 (2), assumption 10), and a free value too after one that never returned, of which the spec says nothing (R226
speaks of chip-select only; DESIGN CHOICE, assumption 27). -/
def oracleUp (d : Nat) (c : Call) (a : Option Answer) (up : Bool) : Bool :=
  match c, a with
  | .tinit, some .ok => true
  | .tdeinit, some .ok => false
  | .tinit, some .fail => Config.freeUp d
  | .tdeinit, some .fail => Config.freeUp d
  | .tinit, none => Config.freeUp d
  | .tdeinit, none => Config.freeUp d
  | .tx _ _, _ => up
  | .rx _ _, _ => up

/-- A call to the oracle (R50, R51): it applies the policy whatever it answers; a call that never returns leaves
chip-select as the entry set it, and a TINIT or TDEINIT that never returns leaves `up` free (assumption 27). -/
def oracleCall (c : Call) (s : State) : CallResult :=
  let r := s.replyAt 0
  let inside := s.nextReply.setCs (csAtEntry c s.cs)
  match r.answer with
  | none => .hung (inside.setUp (oracleUp s.draws c none s.up))
  | some a =>
    .answered a (oracleBytes s.draws c r)
      ((inside.setCs (csAtExit c inside.cs)).setUp (oracleUp s.draws c (some a) s.up))

/-- A call to the reference device (R61), which never answers `fail`. -/
def referenceCall (c : Call) (s : State) : CallResult :=
  match c with
  | .tinit => .answered .ok [] (s.setUp true)
  | .tdeinit => .answered .ok [] (s.setUp false)
  | .tx bytes p =>
    match deviceRefuses p s with
    | some r => .refused r
    | none => .answered .ok [] (deviceExit p (bytes.foldl deviceInput (deviceEntry p s)))
  | .rx n p =>
    match deviceRefuses p s with
    | some r => .refused r
    | none =>
      match deviceOutputs n (deviceEntry p s) with
      | none => .refused .deviceOutputRequest
      | some (bytes, t) => .answered .ok bytes (deviceExit p t)

/-- A call to the transport that stands behind the block, before it is recorded. -/
def linkCall (c : Call) (s : State) : CallResult :=
  match s.link with
  | .oracle => oracleCall c s
  | .reference => referenceCall c s

/-- One transport call (R17, R50): made, answered and recorded. -/
def transportCall (c : Call) (s : State) : CallResult :=
  match linkCall c s with
  | .answered a bytes t => .answered a bytes (t.record ⟨c, some a, bytes⟩)
  | .hung t => .hung ((t.record ⟨c, none, []⟩).waitFor c)
  | .refused r => .refused r

/-- One transport call and what the operation does after its answer. Every call blocks (R17): where the answer never
comes the operation stays at this call (R226). -/
def callThen (c : Call) (s : State) (k : Answer → List Byte → State → Result) : Result :=
  match transportCall c s with
  | .answered a bytes t => k a bytes t
  | .hung t => .next t
  | .refused r => .refused r

/-! ### Responses and the precondition-failure mechanism -/

/-- A response that carries a status and nothing else (R88). -/
def statusResponse (st : BitVec 8) : Response := ⟨st, [], none⟩

/-- The end of an operation (R234): the response is given and the block is idle. -/
def respond (r : Response) (s : State) : Result := .next (s.answerHost r)

/-- `raise Precond(code)` (R184): the typed error, or with ASSERT_FATAL the stop without a response. -/
def raisePrecond (code : BitVec 8) (s : State) : Result :=
  if s.config.assertFatal then .next s.halt else respond (statusResponse code) s

/-! ### Primitives and transactions -/

/-- What follows a primitive: its caller goes on with the status and the bytes returned. -/
abbrev Cont := BitVec 8 → List Byte → State → Result

/-- `WriteEnable()` (R111). -/
def writeEnable (s : State) (k : Cont) : Result :=
  callThen (.tx [codeWREN] .both) s fun a _ t => k (tr a) [] t

/-- `WriteDisable()` (R113). -/
def writeDisable (s : State) (k : Cont) : Result :=
  callThen (.tx [codeWRDI] .both) s fun a _ t => k (tr a) [] t

/-- `StatusRead()` (R121): the RX is made whatever the TX answered, and the byte is returned as received. -/
def statusRead (s : State) (k : Cont) : Result :=
  callThen (.tx [codeRDSR] .assert) s fun a₁ _ t₁ =>
    callThen (.rx 1 .release) t₁ fun a₂ b t₂ => k (tr a₁ ||| tr a₂) b t₂

/-- The READ transaction (R131, R92): the frame, then `n` received bytes, whatever the frame's call answered (R132). -/
def readTransaction (addr : Word) (n : Nat) (s : State) (k : Cont) : Result :=
  callThen (.tx (frame s.mode .read addr) .assert) s fun a₁ _ t₁ =>
    callThen (.rx n .release) t₁ fun a₂ d t₂ => k (tr a₁ ||| tr a₂) d t₂

/-- The WRITE transaction (R141, R92): the frame, then the payload, whatever the frame's call answered (R145). -/
def writeTransaction (addr : Word) (data : List Byte) (s : State) (k : Cont) : Result :=
  callThen (.tx (frame s.mode .write addr) .assert) s fun a₁ _ t₁ =>
    callThen (.tx data .release) t₁ fun a₂ _ t₂ => k (tr a₁ ||| tr a₂) [] t₂

/-- The end of a wire instruction run on its own: what it returned stands in `primResult` (assumption 5). -/
def endPrimitive : Cont := fun st bytes s => .next (s.returnPrim ⟨st, bytes⟩)

/-- A wire READ or WRITE, which only an instance of its mode has (R70). -/
def inMode (m : Mode) (s : State) (body : Result) : Result :=
  if s.mode = m then body else .refused .frameOfAnotherMode

end Sys2Proof.Machine
end

