-- ==== Sys2Proof/Machine/Frames.lean ====
section
/-! DEFINITION. The wire instructions READ and WRITE in the three frame formats (R72 to R75, R92). -/

namespace Sys2Proof.Machine

/-- READ in format A9. -/
def execReadA9 (addr : BitVec 9) (n : Nat) (s : State) : Result :=
  inMode .a9 s (readTransaction (addr.setWidth 32) n s endPrimitive)

/-- READ in format A16. -/
def execReadA16 (addr : BitVec 16) (n : Nat) (s : State) : Result :=
  inMode .a16 s (readTransaction (addr.setWidth 32) n s endPrimitive)

/-- READ in format A24. -/
def execReadA24 (addr : BitVec 24) (n : Nat) (s : State) : Result :=
  inMode .a24 s (readTransaction (addr.setWidth 32) n s endPrimitive)

/-- WRITE in format A9. -/
def execWriteA9 (addr : BitVec 9) (data : List Byte) (s : State) : Result :=
  inMode .a9 s (writeTransaction (addr.setWidth 32) data s endPrimitive)

/-- WRITE in format A16. -/
def execWriteA16 (addr : BitVec 16) (data : List Byte) (s : State) : Result :=
  inMode .a16 s (writeTransaction (addr.setWidth 32) data s endPrimitive)

/-- WRITE in format A24. -/
def execWriteA24 (addr : BitVec 24) (data : List Byte) (s : State) : Result :=
  inMode .a24 s (writeTransaction (addr.setWidth 32) data s endPrimitive)

end Sys2Proof.Machine
end

