-- ==== Sys2Proof/Machine/Gate.lean ====
section
/-! DEFINITION. The format I wire instructions: WREN, WRDI and RDSR (41_write_enable_gate.md, 42_status_read.md). -/

namespace Sys2Proof.Machine

/-- WREN (R111). -/
def execWren (s : State) : Result := writeEnable s endPrimitive

/-- WRDI (R113). -/
def execWrdi (s : State) : Result := writeDisable s endPrimitive

/-- RDSR (R121). -/
def execRdsr (s : State) : Result := statusRead s endPrimitive

end Sys2Proof.Machine
end

