-- ==== Sys2Proof/Machine/Lifecycle.lean ====
section
/-! DEFINITION. The lifecycle operations (46_lifecycle.md): init, deinit, is_initialized; and the level output of the
flag (R165). -/

namespace Sys2Proof.Machine

/-- The end of init's self-test (R161): Ready on the one success path, else ERROR_INIT alone. -/
def finishSelfTest (s₀ s₁ : BitVec 8) (snapshot : List Byte) (s : State) : Result :=
  if s₀ = statusOK ∧ s₁ = statusOK ∧ latchReadsSet snapshot = true then
    respond (statusResponse statusOK) (s.setInitialized true)
  else respond (statusResponse statusErrorInit) s

/-- init's self-test (R161): write-enable, then a status read, all three calls made whatever they answer (R183). -/
def selfTest (s : State) : Result :=
  writeEnable s fun s₀ _ t => statusRead t fun s₁ b u => finishSelfTest s₀ s₁ b u

/-- `init()` (R161). A `fail` from TINIT ends it at once. -/
def execInit (s : State) : Result :=
  if s.initialized then respond (statusResponse statusOK) s
  else callThen .tinit s fun a _ t =>
    match a with
    | .fail => respond (statusResponse statusErrorInit) t
    | .ok => selfTest t

/-- `deinit()` (R163): both calls made, the flag cleared, the results ORed. -/
def execDeinit (s : State) : Result :=
  if s.initialized then
    writeDisable s fun s₀ _ t =>
      callThen .tdeinit t fun a _ u => respond (statusResponse (s₀ ||| tr a)) (u.setInitialized false)
  else respond (statusResponse statusOK) s

/-- `is_initialized()` (R165). -/
def execIsInitialized (s : State) : Result := respond ⟨statusOK, [], some s.initialized⟩ s

/-- The level output that follows the bit at all times, stopped or not (R165). -/
def State.flagOutput (s : State) : Bool := s.initialized

end Sys2Proof.Machine
end

