-- ==== Sys2Proof/Machine/Reserved.lean ====
section
/-! DEFINITION. The reserved host operation codes 6 and 7 (R185). -/

namespace Sys2Proof.Machine

/-- Operation code 6: `raise Precond(ERROR)` (R185). -/
def execReserved6 (s : State) : Result := raisePrecond statusError s

/-- Operation code 7: `raise Precond(ERROR)` (R185). -/
def execReserved7 (s : State) : Result := raisePrecond statusError s

end Sys2Proof.Machine
end

