-- ==== Sys2Proof/Machine/Transfer.lean ====
section
/-! DEFINITION. The host operations that move data: read (43_read.md), write (44_write.md), erase (45_erase.md). -/

namespace Sys2Proof.Machine

/-- `read(addr, size)` (R131): three checks in order (R187), then the READ transaction. -/
def execRead (addr size : Word) (s : State) : Result :=
  if s.initialized = false then raisePrecond statusErrorInit s
  else if size = 0#32 then raisePrecond statusError s
  else if s.pastEnd addr size then raisePrecond statusErrorAddr s
  else readTransaction addr size.toNat s fun st d t => respond ⟨st, d, none⟩ t

/-- `write(addr, size, data)` (R141): the bound is checked only with WRITE_BOUND_CHECK (R142); then the gate, and the
WRITE transaction whatever the gate answered (R145). -/
def writeOperation (addr size : Word) (data : List Byte) (s : State) : Result :=
  if s.initialized = false then raisePrecond statusErrorInit s
  else if s.config.writeBoundCheck = true ∧ s.pastEnd addr size = true then raisePrecond statusErrorAddr s
  else writeEnable s fun s₀ _ t =>
    writeTransaction addr data t fun st _ u => respond (statusResponse (s₀ ||| st)) u

/-- The host operation write (R141). -/
def execWrite (addr size : Word) (data : List Byte) (s : State) : Result := writeOperation addr size data s

/-- `erase(addr, size)` (R151): `initialized` first (C4), then the size limit, then a write of FF bytes. -/
def execErase (addr size : Word) (s : State) : Result :=
  if s.initialized = false then raisePrecond statusErrorInit s
  else if eraseLimit ≤ size.toNat then raisePrecond statusError s
  else writeOperation addr size (erasePayload size) s

end Sys2Proof.Machine
end

