-- ==== Sys2Proof/Machine/Unused.lean ====
section
/-! DEFINITION. The five instruction codes that the block never emits: the spec gives them no format, no data phase and
no semantics, and asks a model to refuse them (R83, U5). -/

namespace Sys2Proof.Machine

/-- WRSR 0x01: refused (R83). -/
def execWrsr (_s : State) : Result := .refused (.neverEmitted codeWRSR)

/-- RDID 0x9F: refused (R83). -/
def execRdid (_s : State) : Result := .refused (.neverEmitted codeRDID)

/-- SLEEP 0xB9: refused (R83). -/
def execSleep (_s : State) : Result := .refused (.neverEmitted codeSLEEP)

/-- FSTRD 0x0B: refused (R83). -/
def execFstrd (_s : State) : Result := .refused (.neverEmitted codeFSTRD)

/-- SNR 0xC3: refused (R83). -/
def execSnr (_s : State) : Result := .refused (.neverEmitted codeSNR)

end Sys2Proof.Machine
end

