-- ==== Sys2Proof/Machine/Dispatch.lean ====
section
/-! DEFINITION. exec: one arm per instruction, each a direct call of its meaning. -/

namespace Sys2Proof.Machine

def exec (i : Instr) (s : State) : Host.Outcome State Fault Refusal :=
  match i with
  -- format I wire instructions
  | .wren => Sys2Proof.Machine.execWren s
  | .wrdi => Sys2Proof.Machine.execWrdi s
  | .rdsr => Sys2Proof.Machine.execRdsr s
  -- READ and WRITE frames
  | .readA9 addr n => Sys2Proof.Machine.execReadA9 addr n s
  | .readA16 addr n => Sys2Proof.Machine.execReadA16 addr n s
  | .readA24 addr n => Sys2Proof.Machine.execReadA24 addr n s
  | .writeA9 addr data => Sys2Proof.Machine.execWriteA9 addr data s
  | .writeA16 addr data => Sys2Proof.Machine.execWriteA16 addr data s
  | .writeA24 addr data => Sys2Proof.Machine.execWriteA24 addr data s
  -- listed, never emitted
  | .wrsr => Sys2Proof.Machine.execWrsr s
  | .rdid => Sys2Proof.Machine.execRdid s
  | .sleep => Sys2Proof.Machine.execSleep s
  | .fstrd => Sys2Proof.Machine.execFstrd s
  | .snr => Sys2Proof.Machine.execSnr s
  -- host operations
  | .init => Sys2Proof.Machine.execInit s
  | .deinit => Sys2Proof.Machine.execDeinit s
  | .isInitialized => Sys2Proof.Machine.execIsInitialized s
  | .read addr size => Sys2Proof.Machine.execRead addr size s
  | .write addr size data => Sys2Proof.Machine.execWrite addr size data s
  | .erase addr size => Sys2Proof.Machine.execErase addr size s
  | .reserved6 => Sys2Proof.Machine.execReserved6 s
  | .reserved7 => Sys2Proof.Machine.execReserved7 s

end Sys2Proof.Machine
end

