-- ==== Sys2Proof/Machine/Fetch.lean ====
section
/-! DEFINITION. How the block takes its next input (R21, R220, R234): only when idle, one at a time, nothing while
stopped except reset. Also how a word of the opcode table is placed as the next input. -/

namespace Sys2Proof.Machine

/-- What the next step is to do. -/
inductive Fetched where
  /-- Nothing is executed: the next state is `s`. -/
  | done (s : State)
  /-- The instruction `i` runs on `s`. -/
  | run (i : Instr) (s : State)
  | fault (f : Fault)
  | refused (r : Refusal)
  deriving DecidableEq, Repr

/-- The next input met while an operation is in progress and never ends (R226): a request has no defined behaviour
(R220), reset no step (R210). -/
def fetchWaiting (inbox : List Input) : Fetched :=
  match inbox with
  | [] => .fault .stuckInTransportCall
  | .reset :: _ => .refused .resetInOperation
  | .request _ :: _ => .refused .requestInOperation
  | .primitive _ :: _ => .refused .requestInOperation

/-- An input other than reset, with the inbox already past it: not accepted and without a response while stopped
(R23, R184, P5), else decoded. -/
def accept (x : Input) (s : State) : Fetched :=
  if s.halted then .done s
  else match decode s.mode x with
    | .ok i => .run i s
    | .error e => .refused (.undecodable e)

/-- The next input met while idle; with none, the block waits (R21). -/
def fetchIdle (s : State) : Fetched :=
  match s.inbox with
  | [] => .done s
  | .reset :: rest => .done (s.withInbox rest).resetBlock
  | .request r :: rest => accept (.request r) (s.withInbox rest)
  | .primitive t :: rest => accept (.primitive t) (s.withInbox rest)

/-- The next input. -/
def fetch (s : State) : Fetched :=
  match s.position with
  | .idle => fetchIdle s
  | .waiting _ => fetchWaiting s.inbox

/-- An ADDR_BITS of the mode: the instance's own where it has the mode, else the smallest (R8). -/
def addrBitsIn (m : Mode) (b : AddrBits) : AddrBits :=
  if b.mode = m then b
  else match m with
    | .a9 => ⟨9, by decide, by decide⟩
    | .a16 => ⟨10, by decide, by decide⟩
    | .a24 => ⟨16, by decide, by decide⟩

/-- The state in which a table word is the next input (assumption 16): the block idle and not stopped; for a wire word
also an instance of the word's mode, with the transport up, as every TX and RX assumes (R30). -/
def placeTableWord (s : State) (nbits w : Nat) : State :=
  match tableInput nbits w with
  | .primitive t =>
    { s with config := { s.config with addrBits := addrBitsIn (tableMode nbits) s.config.addrBits },
             position := .idle, halted := false, up := true, inbox := .primitive t :: s.inbox }
  | x => { s with position := .idle, halted := false, inbox := x :: s.inbox }

end Sys2Proof.Machine
end

