-- ==== Sys2Proof/Safety.lean ====
section
/-! DEFINITION. The terms in which claims speak: when the transport serves an operation, what a well-bracketed and
lawful trace is (R52, R82, R92), which status bytes are legal (R86, R188), what a self-test leaves in the trace (R33),
and what the device array always satisfies. -/

namespace Sys2Proof.Machine

/-- The transport answers the next `k` calls that move bytes. The oracle: no reply of the next `k` is "never" (R226).
The reference device: it is up and chip-select is released, so that it gives every call a meaning (R61). -/
def State.serves (s : State) (k : Nat) : Bool :=
  match s.link with
  | .oracle => (List.range k).all fun i => (s.replyAt i).answer.isSome
  | .reference => s.up && !s.cs

/-- The transport answers the four calls of an init (R161): as `serves`, but the reference device may be down, since
TINIT brings it up (R61). -/
def State.servesInit (s : State) : Bool :=
  match s.link with
  | .oracle => (List.range 4).all fun i => (s.replyAt i).answer.isSome
  | .reference => !s.cs

/-- `raise Precond(code)` as R184 gives it: the stop with ASSERT_FATAL, else the error response and nothing else. -/
def State.afterPrecond (s : State) (code : BitVec 8) : State :=
  if s.config.assertFatal then { s with halted := true }
  else { s with responses := s.responses ++ [⟨code, [], none⟩] }

/-- Whether chip-select stays bracketed (R52): the level after one more call, none where the call breaks the law. -/
def bracketStep (level : Option Bool) (c : Call) : Option Bool :=
  match level, c.policy with
  | some false, none => some false
  | some false, some .assert => some true
  | some false, some .both => some false
  | some true, some .release => some false
  | _, _ => none

/-- The level after a whole trace that starts with chip-select released, none where it breaks the bracketing law. -/
def bracketLevel (t : List TraceItem) : Option Bool :=
  t.foldl (fun l e => bracketStep l e.call) (some false)

/-- Between operations chip-select is released, no transaction is open on the device, and the trace is a sequence of
whole transactions (R52). -/
def State.bracketed (s : State) : Prop :=
  s.position = .idle → s.cs = false ∧ s.txn = [] ∧ bracketLevel s.trace = some false

/-- `f` is a frame of `i` in the mode: FRAME_LEN bytes that begin with its code, bit 7 free in A9 (R82). -/
def isFrame (m : Mode) (i : FrameInstr) (f : List Byte) : Bool :=
  f.length == m.frameLen && decodeInstr m f == some i.code

/-- What the trace stands before: no transaction is open, or the one that the last call opened waits for its data phase
(R92). -/
inductive Phase where
  | closed
  | status
  | reading
  | writing
  deriving DecidableEq, Repr

/-- The phase after one more call, none where the call does not belong there: every transaction is one of those that the
block can produce (R92), with the argument shapes of R53. The data phase of a status read is RX of 1 byte, of a READ an RX
of at least one byte, of a WRITE a TX of any payload; TINIT and TDEINIT stand between transactions. -/
def phaseStep (m : Mode) (p : Phase) (c : Call) : Option Phase :=
  match p, c with
  | .closed, .tinit => some .closed
  | .closed, .tdeinit => some .closed
  | .closed, .tx f .both => if f = [codeWREN] ∨ f = [codeWRDI] then some .closed else none
  | .closed, .tx f .assert =>
    if f = [codeRDSR] then some .status
    else if isFrame m .read f = true then some .reading
    else if isFrame m .write f = true then some .writing
    else none
  | .status, .rx n .release => if n = 1 then some .closed else none
  | .reading, .rx n .release => if 0 < n then some .closed else none
  | .writing, .tx _ .release => some .closed
  | _, _ => none

/-- The phase after a whole trace, none where some call of it does not belong where it stands. -/
def tracePhase (m : Mode) (t : List TraceItem) : Option Phase :=
  t.foldl (fun p e => p.bind fun q => phaseStep m q e.call) (some .closed)

/-- The trace is a sequence of listed transactions (R53, R82, R92), the last one whole unless the block waits for ever in
it (R226). -/
def State.traceListed (s : State) : Prop :=
  (tracePhase s.mode s.trace).isSome = true ∧ (s.position = .idle → tracePhase s.mode s.trace = some .closed)

/-- A check of the instruction fails in `s`, in the words of R131, R141, R151 and R185: not initialized, a size that is
not allowed, a range past MAX_ADDR where it is checked; the reserved codes always fail. -/
def State.failsCheck (s : State) : Instr → Bool
  | .read addr size =>
    !s.initialized || decide (size = 0#32) || decide (s.arraySize < addr.toNat + size.toNat)
  | .write addr size _ =>
    !s.initialized || (s.config.writeBoundCheck && decide (s.arraySize < addr.toNat + size.toNat))
  | .erase addr size =>
    !s.initialized || decide (256 ≤ size.toNat) ||
      (s.config.writeBoundCheck && decide (s.arraySize < addr.toNat + size.toNat))
  | .reserved6 | .reserved7 => true
  | .wren | .wrdi | .rdsr | .readA9 _ _ | .readA16 _ _ | .readA24 _ _ | .writeA9 _ _ | .writeA16 _ _ | .writeA24 _ _ => false
  | .wrsr | .rdid | .sleep | .fstrd | .snr | .init | .deinit | .isInitialized => false

/-- OK or exactly one error bit (R86, R188). -/
def statusLegal (b : BitVec 8) : Bool :=
  b == statusOK || b == statusError || b == statusErrorTransport || b == statusErrorInit || b == statusErrorAddr

/-- Every response given carries a legal status. -/
def State.responsesLegal (s : State) : Prop := ∀ r ∈ s.responses, statusLegal r.status = true

/-- The trace of an init whose self-test passed with the snapshot `b` (R161, R33). -/
def selfTestTrace (b : Byte) : List TraceItem :=
  [⟨.tinit, some .ok, []⟩, ⟨.tx [codeWREN] .both, some .ok, []⟩,
   ⟨.tx [codeRDSR] .assert, some .ok, []⟩, ⟨.rx 1 .release, some .ok, [b]⟩]

/-- Ready only after a passed self-test with no completed deinit since (R33). -/
def State.readyEarned (s : State) : Prop :=
  s.initialized = true →
    ∃ before b after, s.trace = before ++ selfTestTrace b ++ after ∧ snapshotWel b = true ∧
      ∀ e ∈ after, e.call = .tdeinit → e.answer = none

/-- The device array is in canonical form and has no byte outside [0, MAX_ADDR] (R40). -/
def State.arraySound (s : State) : Prop := Memory.wf s.mem = true ∧ memWithin s.arraySize s.mem = true

/-- The states in which a data operation runs to its end on the reference device: Ready, transport up, chip-select
released (R66). -/
def State.readyOnDevice (s : State) : Prop :=
  s.link = .reference ∧ s.initialized = true ∧ s.up = true ∧ s.cs = false

end Sys2Proof.Machine
end

