-- ==== Sys2Proof/Certificates/Slice0/Obligations.lean ====
section
/-! DEFINITION. The statements for the provers. Each docstring names the rules of spec/ or the decision (D<n>) it rests
on; statements about every transport say, in the trace that they give, what the transport answered. Where a form stops
or traps, the statement says so. -/

open Sys2Proof Sys2Proof.Machine

/-! ### Encoding -/

/-- R70 to R75, R88 (the request numbering is D15; the shape of WRSR, RDID, SLEEP, FSTRD and SNR, to which R83 gives no
format, is the model's choice, assumption 28): for every mode and every instruction that an instance of it can be
given, the decoder reads the encoded instruction back, with every operand: no bit of an encoding is dropped. -/
def Obligations.DecodeOfEncodeIsIdentity : Prop :=
  ∀ (m : Mode) (i : Instr), i.wellFormed m = true → decode m (encode i) = .ok i

/-- R70, R53, R88: what the decoder accepts is an instruction that the instance can be given. That every other shape is
rejected is the model's choice (assumption 14; assumption 28 for the five codes to which R83 gives no format). -/
def Obligations.DecodedInstructionsAreWellFormed : Prop :=
  ∀ (m : Mode) (x : Input) (i : Instr), decode m x = .ok i → i.wellFormed m = true

/-- In a mode a transaction that decodes to an instruction is that instruction's encoding, so no two transactions have the
same meaning. R85 tells the instructions apart and gives READ and WRITE their addresses; that no other shape is accepted is
the model's choice: assumption 14, and assumption 28 for WRSR, RDID, SLEEP, FSTRD and SNR, to which R83 gives no format. -/
def Obligations.EncodeOfDecodedTransaction : Prop :=
  ∀ (m : Mode) (t : Transaction) (i : Instr), decode m (.primitive t) = .ok i → encode i = .primitive t

/-- R8: MODE, NADDR, FRAME_LEN and MAX_ADDR as functions of ADDR_BITS: A9 with 1 address byte and 2 frame bytes at 9; A16
with 2 and 3 at 10 to 15; A24 with 3 and 4 at 16 to 19; MAX_ADDR is 2^ADDR_BITS - 1. -/
def Obligations.ModeFollowsAddressWidth : Prop :=
  ∀ b : AddrBits,
    b.maxAddr = 2 ^ b.val - 1 ∧
    (b.val = 9 → b.mode = .a9 ∧ b.mode.addrBytes = 1 ∧ b.mode.frameLen = 2) ∧
    (10 ≤ b.val ∧ b.val ≤ 15 → b.mode = .a16 ∧ b.mode.addrBytes = 2 ∧ b.mode.frameLen = 3) ∧
    (16 ≤ b.val ∧ b.val ≤ 19 → b.mode = .a24 ∧ b.mode.addrBytes = 3 ∧ b.mode.frameLen = 4)

/-- R7 (D29): there is an ADDR_BITS of the value `n` exactly for `n` from 9 to 19, and the conversion from a number builds
that one and no other. -/
def Obligations.AddressWidthsAreNineToNineteen : Prop :=
  ∀ n : Nat, ((∃ b : AddrBits, b.val = n) ↔ 9 ≤ n ∧ n ≤ 19) ∧ ∀ b : AddrBits, AddrBits.ofNat? n = some b ↔ b.val = n

/-- R101: every byte of a frame, bit by bit: in A9 the instruction byte with bit 7 forced to address bit 8, then address
bits 7:0; in A16 the instruction byte, then two address bytes, high byte first; in A24 three. READ is 0x03, WRITE
0x02. -/
def Obligations.FrameBytesFollowMode : Prop :=
  FrameInstr.read.code = 0x03#8 ∧ FrameInstr.write.code = 0x02#8 ∧
  ∀ (i : FrameInstr) (addr : Word),
    (∃ b₀ b₁ : Byte, frame .a9 i addr = [b₀, b₁] ∧ b₀.getLsbD 7 = addr.getLsbD 8 ∧
      (∀ k < 7, b₀.getLsbD k = i.code.getLsbD k) ∧ ∀ k < 8, b₁.getLsbD k = addr.getLsbD k) ∧
    (∃ b₁ b₂ : Byte, frame .a16 i addr = [i.code, b₁, b₂] ∧
      ∀ k < 8, b₁.getLsbD k = addr.getLsbD (8 + k) ∧ b₂.getLsbD k = addr.getLsbD k) ∧
    (∃ b₁ b₂ b₃ : Byte, frame .a24 i addr = [i.code, b₁, b₂, b₃] ∧
      ∀ k < 8, b₁.getLsbD k = addr.getLsbD (16 + k) ∧ b₂.getLsbD k = addr.getLsbD (8 + k) ∧
        b₃.getLsbD k = addr.getLsbD k)

/-- R102: the length of a frame is 2, 3 or 4 in modes A9, A16, A24, whatever the instruction and the address. -/
def Obligations.FrameLengthIsFixedByMode : Prop :=
  ∀ (i : FrameInstr) (addr : Word),
    (frame .a9 i addr).length = 2 ∧ (frame .a16 i addr).length = 3 ∧ (frame .a24 i addr).length = 4

/-- R89, R105 (1): for every ADDR_BITS and every address in range the receiver reads back address and instruction. -/
def Obligations.FrameCarriesItsAddress : Prop :=
  ∀ (b : AddrBits) (i : FrameInstr) (addr : Word), addr.toNat ≤ b.maxAddr →
    decodeAddr b.mode (frame b.mode i addr) = some addr.toNat ∧
    decodeInstr b.mode (frame b.mode i addr) = some i.code

/-- R105 (2) and (3): two frames are equal exactly where the addresses agree in the bits the format has room for. -/
def Obligations.FramesAgreeExactlyOnFieldBits : Prop :=
  ∀ (m : Mode) (i : FrameInstr) (a a' : Word),
    frame m i a = frame m i a' ↔ a.toNat % 2 ^ m.fieldBits = a'.toNat % 2 ^ m.fieldBits

/-- R88 (the numbering is D15): every operation code has its operation, operands an operation does not use are ignored,
and a write is accepted exactly with a payload of `size` bytes. -/
def Obligations.HostRequestsDecodeByCode : Prop :=
  ∀ (m : Mode) (addr size : Word) (data : List Byte),
    decode m (.request ⟨0#3, addr, size, data⟩) = .ok .init ∧
    decode m (.request ⟨1#3, addr, size, data⟩) = .ok .deinit ∧
    decode m (.request ⟨2#3, addr, size, data⟩) = .ok .isInitialized ∧
    decode m (.request ⟨3#3, addr, size, data⟩) = .ok (.read addr size) ∧
    (data.length = size.toNat → decode m (.request ⟨4#3, addr, size, data⟩) = .ok (.write addr size data)) ∧
    (data.length ≠ size.toNat → decode m (.request ⟨4#3, addr, size, data⟩) = .error .writeDataLength) ∧
    decode m (.request ⟨5#3, addr, size, data⟩) = .ok (.erase addr size) ∧
    decode m (.request ⟨6#3, addr, size, data⟩) = .ok .reserved6 ∧
    decode m (.request ⟨7#3, addr, size, data⟩) = .ok .reserved7

/-- R81, R88, R92: a few words written out from the spec's patterns. The word of SLEEP is its code of R81 alone: R83 gives
it no format and R92 no pattern, and that it is one byte with nothing received is the model's choice (assumption 28). -/
def Obligations.SampleWordsDecode : Prop :=
  decode .a16 (.primitive ⟨[0b00000110#8], 0⟩) = .ok .wren ∧
  decode .a9 (.primitive ⟨[0b00000100#8], 0⟩) = .ok .wrdi ∧
  decode .a24 (.primitive ⟨[0b00000101#8], 1⟩) = .ok .rdsr ∧
  decode .a9 (.primitive ⟨[0b10000011#8, 0b11111111#8], 1⟩) = .ok (.readA9 0x1FF#9 1) ∧
  decode .a16 (.primitive ⟨[0b00000010#8, 0x12#8, 0x34#8, 0x5A#8], 0⟩) = .ok (.writeA16 0x1234#16 [0x5A#8]) ∧
  decode .a24 (.primitive ⟨[0b00000011#8, 0x07#8, 0xFF#8, 0xFE#8], 2⟩) = .ok (.readA24 0x07FFFE#24 2) ∧
  decode .a9 (.primitive ⟨[0b10111001#8], 0⟩) = .ok .sleep ∧
  decode .a16 (.request ⟨0b011#3, 0x123#32, 2#32, []⟩) = .ok (.read 0x123#32 2#32)

/-! ### The step -/

/-- R21, R88, R234: an accepted input that decodes to an instruction runs it, with the inbox moved past it; nothing else
is added around exec. -/
def Obligations.StepRunsTheDecodedInstruction : Prop :=
  ∀ (s : State) (x : Input) (rest : List Input) (i : Instr),
    s.position = .idle → s.halted = false → s.inbox = x :: rest → decode s.mode x = .ok i →
    i.wellFormed s.mode = true ∧ step s = exec i { s with inbox := rest }

/-- An input that the decoder rejects is refused under the decoder's reason (assumption 14). -/
def Obligations.UndecodableInputIsRefused : Prop :=
  ∀ (s : State) (x : Input) (rest : List Input) (e : DecodeError),
    s.position = .idle → s.halted = false → s.inbox = x :: rest → x ≠ .reset → decode s.mode x = .error e →
    step s = .refused (.undecodable e)

/-- R23, R184 (D12; that the input is used up is assumption 17): stopped, the block accepts no request, answers nothing
and makes no call. -/
def Obligations.StoppedBlockTakesNoRequest : Prop :=
  ∀ (s : State) (x : Input) (rest : List Input),
    s.position = .idle → s.halted = true → s.inbox = x :: rest → x ≠ .reset →
    step s = .next { s with inbox := rest }

/-- R210 (D20): reset clears the two bits, also when stopped, and touches nothing outside the block. -/
def Obligations.ResetClearsTheBlock : Prop :=
  ∀ (s : State) (rest : List Input), s.position = .idle → s.inbox = .reset :: rest →
    step s = .next { s with inbox := rest, initialized := false, halted := false }

/-- R31 (that a step of the idle block without an input changes nothing is assumption 25): after reset, for every
configuration, the block is Uninitialized, not stopped and idle, has made no call and given no response, and waits. -/
def Obligations.ResetLeavesAnIdleBlock : Prop :=
  State.reset = State.resetOf State.resetConfig ∧
  ∀ c : Config, (State.resetOf c).config = c ∧ (State.resetOf c).initialized = false ∧
    (State.resetOf c).halted = false ∧ (State.resetOf c).position = .idle ∧
    (State.resetOf c).trace = [] ∧ (State.resetOf c).responses = [] ∧
    step (State.resetOf c) = .next (State.resetOf c)

/-- R226, R220, R210 (D30, D23, D20; the stuck fault is assumption 9): a block that waits for a call that never returns
makes no further step, and has no step for a request or for reset. -/
def Obligations.WaitingBlockIsStuck : Prop :=
  ∀ (s : State) (c : Call), s.position = .waiting c →
    (s.inbox = [] → step s = .fault .stuckInTransportCall) ∧
    (∀ rest, s.inbox = .reset :: rest → step s = .refused .resetInOperation) ∧
    (∀ r rest, s.inbox = .request r :: rest → step s = .refused .requestInOperation) ∧
    (∀ t rest, s.inbox = .primitive t :: rest → step s = .refused .requestInOperation)

/-! ### Transport calls -/

/-- R51: where chip-select stands after a call that was answered, whatever the answer and on either transport. -/
def Obligations.ChipSelectFollowsPolicy : Prop :=
  ∀ (c : Call) (s t : State) (a : Answer) (bs : List Byte), transportCall c s = .answered a bs t →
    (c.policy = none → t.cs = s.cs) ∧ (c.policy = some .assert → t.cs = true) ∧
    (c.policy = some .release → t.cs = false) ∧ (c.policy = some .both → t.cs = false)

/-- R17, R50: an answered call is recorded once, with its arguments and its answer, yields as many bytes as were asked
for, and leaves the block, the host's side and the configuration alone. -/
def Obligations.AnsweredCallIsRecorded : Prop :=
  ∀ (c : Call) (s t : State) (a : Answer) (bs : List Byte), transportCall c s = .answered a bs t →
    t = { s with script := t.script, draws := t.draws, cs := t.cs, up := t.up, wel := t.wel, mem := t.mem, txn := t.txn,
                 trace := s.trace ++ [⟨c, some a, bs⟩] } ∧
    (∀ n p, c = .rx n p → bs.length = n) ∧ ((∀ n p, c ≠ .rx n p) → bs = [])

/-- R226 (D30): a call that never returns leaves the operation at that call for ever: no response, and chip-select as the
entry of the call set it. Where the call is TINIT or TDEINIT nothing is said of whether the transport is up afterwards:
the model leaves it free (assumption 27). -/
def Obligations.UnansweredCallStopsTheOperation : Prop :=
  ∀ (c : Call) (s : State) (k : Answer → List Byte → State → Result),
    s.link = .oracle → (s.replyAt 0).answer = none → ∃ b, (c ≠ .tinit → c ≠ .tdeinit → b = s.up) ∧
    callThen c s k = .next { s with position := .waiting c, script := s.script.tail, draws := s.draws + 1,
                                    cs := csAtEntry c s.cs, up := b, trace := s.trace ++ [⟨c, none, []⟩] }

/-- R50 (D6, D27): the oracle gives exactly what its script says to the calls of a read, in order: the response carries
the OR of the two answers and the bytes of the RX passed through, which after a failure carry no meaning (R133). -/
def Obligations.ReadPassesOracleRepliesThrough : Prop :=
  ∀ (s : State) (addr size : Word) (a₀ a₁ : Answer) (b₀ b₁ : List Byte) (rest : List Reply),
    s.link = .oracle → s.initialized = true → size ≠ 0#32 → addr.toNat + size.toNat ≤ s.arraySize →
    s.script = ⟨some a₀, b₀⟩ :: ⟨some a₁, b₁⟩ :: rest → b₁.length = size.toNat →
    exec (.read addr size) s = .next { s with
      script := rest, draws := s.draws + 2, cs := false,
      trace := s.trace ++ [⟨.tx (frame s.mode .read addr) .assert, some a₀, []⟩,
                           ⟨.rx size.toNat .release, some a₁, b₁⟩],
      responses := s.responses ++ [⟨tr a₀ ||| tr a₁, b₁, none⟩] }

/-! ### Wire instructions -/

/-- R111 (the status codes are D3; that the row runs on its own is assumption 4): WREN is one TX of one byte with CS_BOTH;
the value returned stands in `primResult` (assumption 5); nothing in the block is written, and no byte of the array. -/
def Obligations.WrenSendsOneByte : Prop :=
  ∀ s : State, s.serves 1 = true → ∃ a t, exec .wren s = .next t ∧
    t = { s with script := t.script, draws := t.draws, cs := false, wel := t.wel, txn := t.txn,
                 trace := s.trace ++ [⟨.tx [0x06#8] .both, some a, []⟩],
                 primResult := some ⟨if a = .ok then 0x00#8 else 0x02#8, []⟩ }

/-- R113 (D3, assumptions 4 and 5): WRDI is one TX of one byte with CS_BOTH; nothing in the block is written, and no byte
of the array. -/
def Obligations.WrdiSendsOneByte : Prop :=
  ∀ s : State, s.serves 1 = true → ∃ a t, exec .wrdi s = .next t ∧
    t = { s with script := t.script, draws := t.draws, cs := false, wel := t.wel, txn := t.txn,
                 trace := s.trace ++ [⟨.tx [0x04#8] .both, some a, []⟩],
                 primResult := some ⟨if a = .ok then 0x00#8 else 0x02#8, []⟩ }

/-- R121, R125 (D3, D7, assumptions 4 and 5): RDSR is two calls in one transaction, the second made whatever the first answered; the byte is returned
as received; nothing but the trace changes in the block, and the latch and the array do not change. -/
def Obligations.RdsrReturnsTheReceivedByte : Prop :=
  ∀ s : State, s.serves 2 = true → ∃ a₁ a₂ b t, exec .rdsr s = .next t ∧
    t = { s with script := t.script, draws := t.draws, cs := false, txn := t.txn,
                 trace := s.trace ++ [⟨.tx [0x05#8] .assert, some a₁, []⟩, ⟨.rx 1 .release, some a₂, [b]⟩],
                 primResult := some ⟨if a₁ = .ok ∧ a₂ = .ok then 0x00#8 else 0x02#8, [b]⟩ }

/-- R75, R92 (D7, assumptions 4 and 5): a wire READ in the instance's format is its frame with CS_ASSERT and `n` received
bytes with CS_RELEASE; latch and array do not change. On the reference device (D19) byte `j` received is the byte of the
array at the address that the frame spells plus `j`, modulo 2^ADDR_BITS (R62 to R64), and both calls answer `ok`. -/
def Obligations.WireReadIsOneTransaction : Prop :=
  ∀ (s : State) (n : Nat), s.serves 2 = true →
    (∀ a : BitVec 9, s.mode = .a9 → ∃ a₁ a₂ d t, exec (.readA9 a n) s = .next t ∧ d.length = n ∧
      (s.link = .reference → a₁ = .ok ∧ a₂ = .ok ∧ ∀ j (hj : j < d.length), ∃ x,
        txnAddr s.config.addrBits (frame .a9 .read (a.setWidth 32)) j = some x ∧ d[j] = memRead s.mem x) ∧
      t = { s with script := t.script, draws := t.draws, cs := false, txn := t.txn,
                   trace := s.trace ++ [⟨.tx (frame .a9 .read (a.setWidth 32)) .assert, some a₁, []⟩,
                                        ⟨.rx n .release, some a₂, d⟩],
                   primResult := some ⟨tr a₁ ||| tr a₂, d⟩ }) ∧
    (∀ a : BitVec 16, s.mode = .a16 → ∃ a₁ a₂ d t, exec (.readA16 a n) s = .next t ∧ d.length = n ∧
      (s.link = .reference → a₁ = .ok ∧ a₂ = .ok ∧ ∀ j (hj : j < d.length), ∃ x,
        txnAddr s.config.addrBits (frame .a16 .read (a.setWidth 32)) j = some x ∧ d[j] = memRead s.mem x) ∧
      t = { s with script := t.script, draws := t.draws, cs := false, txn := t.txn,
                   trace := s.trace ++ [⟨.tx (frame .a16 .read (a.setWidth 32)) .assert, some a₁, []⟩,
                                        ⟨.rx n .release, some a₂, d⟩],
                   primResult := some ⟨tr a₁ ||| tr a₂, d⟩ }) ∧
    (∀ a : BitVec 24, s.mode = .a24 → ∃ a₁ a₂ d t, exec (.readA24 a n) s = .next t ∧ d.length = n ∧
      (s.link = .reference → a₁ = .ok ∧ a₂ = .ok ∧ ∀ j (hj : j < d.length), ∃ x,
        txnAddr s.config.addrBits (frame .a24 .read (a.setWidth 32)) j = some x ∧ d[j] = memRead s.mem x) ∧
      t = { s with script := t.script, draws := t.draws, cs := false, txn := t.txn,
                   trace := s.trace ++ [⟨.tx (frame .a24 .read (a.setWidth 32)) .assert, some a₁, []⟩,
                                        ⟨.rx n .release, some a₂, d⟩],
                   primResult := some ⟨tr a₁ ||| tr a₂, d⟩ })

/-- R75, R92 (D7, assumptions 4 and 5): a wire WRITE in the instance's format is its frame with CS_ASSERT and the payload
with CS_RELEASE. -/
def Obligations.WireWriteIsOneTransaction : Prop :=
  ∀ (s : State) (data : List Byte), s.serves 2 = true →
    (∀ a : BitVec 9, s.mode = .a9 → ∃ a₁ a₂ t, exec (.writeA9 a data) s = .next t ∧
      t = { s with script := t.script, draws := t.draws, cs := false, wel := t.wel, mem := t.mem, txn := t.txn,
                   trace := s.trace ++ [⟨.tx (frame .a9 .write (a.setWidth 32)) .assert, some a₁, []⟩,
                                        ⟨.tx data .release, some a₂, []⟩],
                   primResult := some ⟨tr a₁ ||| tr a₂, []⟩ }) ∧
    (∀ a : BitVec 16, s.mode = .a16 → ∃ a₁ a₂ t, exec (.writeA16 a data) s = .next t ∧
      t = { s with script := t.script, draws := t.draws, cs := false, wel := t.wel, mem := t.mem, txn := t.txn,
                   trace := s.trace ++ [⟨.tx (frame .a16 .write (a.setWidth 32)) .assert, some a₁, []⟩,
                                        ⟨.tx data .release, some a₂, []⟩],
                   primResult := some ⟨tr a₁ ||| tr a₂, []⟩ }) ∧
    (∀ a : BitVec 24, s.mode = .a24 → ∃ a₁ a₂ t, exec (.writeA24 a data) s = .next t ∧
      t = { s with script := t.script, draws := t.draws, cs := false, wel := t.wel, mem := t.mem, txn := t.txn,
                   trace := s.trace ++ [⟨.tx (frame .a24 .write (a.setWidth 32)) .assert, some a₁, []⟩,
                                        ⟨.tx data .release, some a₂, []⟩],
                   primResult := some ⟨tr a₁ ||| tr a₂, []⟩ })

/-- R70, R85 (that it stops is assumption 22): a frame of a mode that is not the instance's has no meaning there and stops
by name. -/
def Obligations.FrameOfAnotherModeIsRefused : Prop :=
  ∀ s : State,
    (s.mode ≠ .a9 → (∀ a n, exec (.readA9 a n) s = .refused .frameOfAnotherMode) ∧
      ∀ a d, exec (.writeA9 a d) s = .refused .frameOfAnotherMode) ∧
    (s.mode ≠ .a16 → (∀ a n, exec (.readA16 a n) s = .refused .frameOfAnotherMode) ∧
      ∀ a d, exec (.writeA16 a d) s = .refused .frameOfAnotherMode) ∧
    (s.mode ≠ .a24 → (∀ a n, exec (.readA24 a n) s = .refused .frameOfAnotherMode) ∧
      ∀ a d, exec (.writeA24 a d) s = .refused .frameOfAnotherMode)

/-- R83 (D28): the five listed codes that no operation emits are refused, each by its code. -/
def Obligations.UnusedCodesAreRefused : Prop :=
  ∀ s : State,
    exec .wrsr s = .refused (.neverEmitted 0x01#8) ∧ exec .rdid s = .refused (.neverEmitted 0x9F#8) ∧
    exec .sleep s = .refused (.neverEmitted 0xB9#8) ∧ exec .fstrd s = .refused (.neverEmitted 0x0B#8) ∧
    exec .snr s = .refused (.neverEmitted 0xC3#8)

/-- R63, R65 (the reference device is D19): on the reference device WREN sets the latch, WRDI clears it, and RDSR reads
it at bit 1 with every other bit 0 and leaves it alone; none of them changes the array. -/
def Obligations.LatchFollowsTheGateOnTheDevice : Prop :=
  ∀ s : State, s.link = .reference → s.up = true → s.cs = false →
    (∃ t, exec .wren s = .next t ∧ t.wel = true ∧ t.mem = s.mem ∧ t.primResult = some ⟨0x00#8, []⟩) ∧
    (∃ t, exec .wrdi s = .next t ∧ t.wel = false ∧ t.mem = s.mem ∧ t.primResult = some ⟨0x00#8, []⟩) ∧
    (∃ t, exec .rdsr s = .next t ∧ t.wel = s.wel ∧ t.mem = s.mem ∧
      t.primResult = some ⟨0x00#8, [if s.wel then 0x02#8 else 0x00#8]⟩)

/-- R62, R64, R65 (D19): a wire WRITE in any of the three formats on the reference device. With the latch clear it stores
nothing. With the latch set it stores byte `j` of its payload at the address that its frame spells plus `j`, modulo
2^ADDR_BITS (`txnAddr` on the frame is what the device computes the address with), and changes no other byte; where a
payload longer than the array reaches an address again, the later byte stands. The latch is clear afterwards. -/
def Obligations.WireWriteStoresOnlyWithTheLatch : Prop :=
  ∀ (s : State) (i : Instr) (addr : Word) (data : List Byte),
    (∃ a : BitVec 9, i = .writeA9 a data ∧ addr = a.setWidth 32 ∧ s.mode = .a9) ∨
      (∃ a : BitVec 16, i = .writeA16 a data ∧ addr = a.setWidth 32 ∧ s.mode = .a16) ∨
      (∃ a : BitVec 24, i = .writeA24 a data ∧ addr = a.setWidth 32 ∧ s.mode = .a24) →
    s.link = .reference → s.up = true → s.cs = false → Memory.wf s.mem = true →
    ∃ t, exec i s = .next t ∧ t.wel = false ∧ (s.wel = false → t.mem = s.mem) ∧
      (∀ x, (∀ j < data.length, txnAddr s.config.addrBits (frame s.mode .write addr) j ≠ some x) →
        memRead t.mem x = memRead s.mem x) ∧
      (s.wel = true → ∀ j (hj : j < data.length) x, txnAddr s.config.addrBits (frame s.mode .write addr) j = some x →
        (∀ k, j < k → k < data.length → txnAddr s.config.addrBits (frame s.mode .write addr) k ≠ some x) →
        memRead t.mem x = data[j])

/-! ### Lifecycle operations -/

/-- R161, R183 (D8, D9, D25; the code is D3): init from Uninitialized. A failed TINIT ends it after one call. Otherwise
all four calls are made, and it succeeds exactly if the three self-test calls answered `ok` and bit 1 of the snapshot is
set; the code of every failure is ERROR_INIT alone. The array does not change. -/
def Obligations.InitRunsTheSelfTest : Prop :=
  ∀ s : State, s.initialized = false → s.servesInit = true → ∃ t, exec .init s = .next t ∧
    (t = { s with script := t.script, draws := t.draws, up := t.up,
                  trace := s.trace ++ [⟨.tinit, some .fail, []⟩],
                  responses := s.responses ++ [⟨0x04#8, [], none⟩] } ∨
     ∃ a₀ a₁ a₂ b,
      t = { s with initialized := decide (a₀ = .ok ∧ a₁ = .ok ∧ a₂ = .ok ∧ b.getLsbD 1 = true),
                   script := t.script, draws := t.draws, cs := false, up := true, wel := t.wel, txn := t.txn,
                   trace := s.trace ++ [⟨.tinit, some .ok, []⟩, ⟨.tx [0x06#8] .both, some a₀, []⟩,
                                        ⟨.tx [0x05#8] .assert, some a₁, []⟩, ⟨.rx 1 .release, some a₂, [b]⟩],
                   responses := s.responses ++
                     [⟨if a₀ = .ok ∧ a₁ = .ok ∧ a₂ = .ok ∧ b.getLsbD 1 = true then 0x00#8 else 0x04#8, [], none⟩] })

/-- R161, R162 (6): init from Ready is a success without any call. -/
def Obligations.InitWhenReadyDoesNothing : Prop :=
  ∀ s : State, s.initialized = true →
    exec .init s = .next { s with responses := s.responses ++ [⟨0x00#8, [], none⟩] }

/-- R163 (D10): deinit from Ready makes both calls and clears the bit whatever they answered; the results are ORed. -/
def Obligations.DeinitAlwaysClearsTheFlag : Prop :=
  ∀ s : State, s.initialized = true → s.serves 2 = true → ∃ a₀ a₁ t, exec .deinit s = .next t ∧
    t = { s with initialized := false, script := t.script, draws := t.draws, cs := false, up := t.up, wel := t.wel,
                 txn := t.txn,
                 trace := s.trace ++ [⟨.tx [0x04#8] .both, some a₀, []⟩, ⟨.tdeinit, some a₁, []⟩],
                 responses := s.responses ++ [⟨if a₀ = .ok ∧ a₁ = .ok then 0x00#8 else 0x02#8, [], none⟩] }

/-- R163: deinit from Uninitialized is a success without any call. -/
def Obligations.DeinitWhenUninitializedDoesNothing : Prop :=
  ∀ s : State, s.initialized = false →
    exec .deinit s = .next { s with responses := s.responses ++ [⟨0x00#8, [], none⟩] }

/-- R165 (D16): is_initialized answers OK and the bit, and changes nothing. -/
def Obligations.IsInitializedReportsTheFlag : Prop :=
  ∀ s : State,
    exec .isInitialized s = .next { s with responses := s.responses ++ [⟨0x00#8, [], some s.initialized⟩] } ∧
    s.flagOutput = s.initialized

/-! ### Data operations -/

/-- R132: a read that passes its preconditions is exactly the frame and the RX, the RX made whatever the frame's call
answered, with chip-select released at the end; no byte of the array and no latch changes. The response carries the OR
of the two results and the bytes of the RX (R131, R133). -/
def Obligations.ReadMakesExactlyTwoCalls : Prop :=
  ∀ (s : State) (addr size : Word), s.initialized = true → size ≠ 0#32 → addr.toNat + size.toNat ≤ s.arraySize →
    s.serves 2 = true → ∃ a₁ a₂ d t, exec (.read addr size) s = .next t ∧ d.length = size.toNat ∧
    t = { s with script := t.script, draws := t.draws, cs := false, txn := t.txn,
                 trace := s.trace ++ [⟨.tx (frame s.mode .read addr) .assert, some a₁, []⟩,
                                      ⟨.rx size.toNat .release, some a₂, d⟩],
                 responses := s.responses ++ [⟨tr a₁ ||| tr a₂, d, none⟩] }

/-- R131, R184, R187 (D3, D4, D5, D12): the three checks of a read in order, each before any call; with ASSERT_FATAL the
block stops without a response instead. -/
def Obligations.ReadChecksInOrder : Prop :=
  ∀ (s : State) (addr size : Word),
    (s.initialized = false → exec (.read addr size) s = .next (s.afterPrecond 0x04#8)) ∧
    (s.initialized = true → size = 0#32 → exec (.read addr size) s = .next (s.afterPrecond 0x01#8)) ∧
    (s.initialized = true → size ≠ 0#32 → s.arraySize < addr.toNat + size.toNat →
      exec (.read addr size) s = .next (s.afterPrecond 0x08#8))

/-- R145: a write that passes its preconditions makes all three calls whatever the earlier ones answered, and its result
is ERROR_TRANSPORT (0x02) if any failed. There is no hypothesis on `size`. -/
def Obligations.WriteMakesAllThreeCalls : Prop :=
  ∀ (s : State) (addr size : Word) (data : List Byte), s.initialized = true →
    (s.config.writeBoundCheck = true → addr.toNat + size.toNat ≤ s.arraySize) → s.serves 3 = true →
    ∃ a₀ a₁ a₂ t, exec (.write addr size data) s = .next t ∧
    t = { s with script := t.script, draws := t.draws, cs := false, wel := t.wel, mem := t.mem, txn := t.txn,
                 trace := s.trace ++ [⟨.tx [0x06#8] .both, some a₀, []⟩,
                                      ⟨.tx (frame s.mode .write addr) .assert, some a₁, []⟩,
                                      ⟨.tx data .release, some a₂, []⟩],
                 responses := s.responses ++
                   [⟨if a₀ = .ok ∧ a₁ = .ok ∧ a₂ = .ok then statusOK else 0x02#8, [], none⟩] }

/-- R141, R142, R184 (D3, D4, D11, D12): the preconditions of a write, before any call: ERROR_INIT when not initialized,
then ERROR_ADDR past the end with WRITE_BOUND_CHECK; with ASSERT_FATAL the block stops without a response instead. -/
def Obligations.WriteChecksInOrder : Prop :=
  ∀ (s : State) (addr size : Word) (data : List Byte),
    (s.initialized = false → exec (.write addr size data) s = .next (s.afterPrecond 0x04#8)) ∧
    (s.initialized = true → s.config.writeBoundCheck = true → s.arraySize < addr.toNat + size.toNat →
      exec (.write addr size data) s = .next (s.afterPrecond 0x08#8))

/-- R151, R153: an accepted erase makes the three calls of a write whose payload is `size` bytes of 0xFF. -/
def Obligations.EraseSendsOnlyFF : Prop :=
  ∀ (s : State) (addr size : Word), s.initialized = true → size.toNat < 256 →
    (s.config.writeBoundCheck = true → addr.toNat + size.toNat ≤ s.arraySize) → s.serves 3 = true →
    ∃ a₀ a₁ a₂ p t, exec (.erase addr size) s = .next t ∧ p.length = size.toNat ∧ (∀ b ∈ p, b = 0xFF#8) ∧
    t = { s with script := t.script, draws := t.draws, cs := false, wel := t.wel, mem := t.mem, txn := t.txn,
                 trace := s.trace ++ [⟨.tx [0x06#8] .both, some a₀, []⟩,
                                      ⟨.tx (frame s.mode .write addr) .assert, some a₁, []⟩,
                                      ⟨.tx p .release, some a₂, []⟩],
                 responses := s.responses ++
                   [⟨if a₀ = .ok ∧ a₁ = .ok ∧ a₂ = .ok then 0x00#8 else 0x02#8, [], none⟩] }

/-- R151, R184, R187 (D3, D4, D5, D12, C4): the preconditions of an erase, `initialized` first, then the size, then the
write's own range check; each before any call, and with ASSERT_FATAL the block stops without a response instead. -/
def Obligations.EraseChecksInOrder : Prop :=
  ∀ (s : State) (addr size : Word),
    (s.initialized = false → exec (.erase addr size) s = .next (s.afterPrecond 0x04#8)) ∧
    (s.initialized = true → 256 ≤ size.toNat → exec (.erase addr size) s = .next (s.afterPrecond 0x01#8)) ∧
    (s.initialized = true → size.toNat < 256 → s.config.writeBoundCheck = true →
      s.arraySize < addr.toNat + size.toNat → exec (.erase addr size) s = .next (s.afterPrecond 0x08#8))

/-- R150, R151: erase is pure composition: below the limit it is the write of `size` bytes of 0xFF in every state. -/
def Obligations.EraseIsAWriteOfFF : Prop :=
  ∀ (s : State) (addr size : Word), size.toNat < 256 →
    exec (.erase addr size) s = exec (.write addr size (List.replicate size.toNat 0xFF#8)) s

/-- R185 (D15): the reserved operation codes raise ERROR without any call. -/
def Obligations.ReservedCodesAnswerError : Prop :=
  ∀ s : State, exec .reserved6 s = .next (s.afterPrecond 0x01#8) ∧ exec .reserved7 s = .next (s.afterPrecond 0x01#8)

/-! ### On the reference device (R60 to R66; the device is D19) -/

/-- R161 on the device of R60 to R65: init succeeds, brings the transport up and leaves the latch set (R114). -/
def Obligations.InitSucceedsOnTheDevice : Prop :=
  ∀ s : State, s.link = .reference → s.initialized = false → s.cs = false →
    ∃ t, exec .init s = .next t ∧ t.initialized = true ∧ t.up = true ∧ t.wel = true ∧ t.cs = false ∧ t.mem = s.mem ∧
      t.responses = s.responses ++ [⟨0x00#8, [], none⟩]

/-- R163 on the device of R60 to R65: deinit clears the latch, takes the transport down and answers OK. -/
def Obligations.DeinitClosesTheDevice : Prop :=
  ∀ s : State, s.readyOnDevice →
    ∃ t, exec .deinit s = .next t ∧ t.initialized = false ∧ t.up = false ∧ t.wel = false ∧ t.cs = false ∧
      t.mem = s.mem ∧ t.responses = s.responses ++ [⟨0x00#8, [], none⟩]

/-- R62, R64, R65: an accepted write stores byte `j` of its payload at the address that the frame spells plus `j`,
modulo 2^ADDR_BITS, changes no other byte of the array, and clears the latch. Where a payload longer than the array
reaches an address again, the later byte stands. `txnAddr` on the frame is what the device computes the address with. -/
def Obligations.WriteStoresItsPayload : Prop :=
  ∀ (s : State) (addr size : Word) (data : List Byte), s.readyOnDevice → Memory.wf s.mem = true →
    (s.config.writeBoundCheck = true → addr.toNat + size.toNat ≤ s.arraySize) →
    ∃ t, exec (.write addr size data) s = .next t ∧ t.responses = s.responses ++ [⟨0x00#8, [], none⟩] ∧ t.wel = false ∧
      (∀ x, (∀ j < data.length, txnAddr s.config.addrBits (frame s.mode .write addr) j ≠ some x) →
        memRead t.mem x = memRead s.mem x) ∧
      (∀ j (hj : j < data.length) x, txnAddr s.config.addrBits (frame s.mode .write addr) j = some x →
        (∀ k, j < k → k < data.length → txnAddr s.config.addrBits (frame s.mode .write addr) k ≠ some x) →
        memRead t.mem x = data[j])

/-- R62 to R64: an accepted read answers OK with the bytes of the array from `addr` on, and changes neither array nor
latch. -/
def Obligations.ReadReturnsTheArray : Prop :=
  ∀ (s : State) (addr size : Word), s.readyOnDevice → size ≠ 0#32 → addr.toNat + size.toNat ≤ s.arraySize →
    ∃ d t, exec (.read addr size) s = .next t ∧ t.mem = s.mem ∧ t.wel = s.wel ∧
      t.responses = s.responses ++ [⟨0x00#8, d, none⟩] ∧ d.length = size.toNat ∧
      ∀ j (hj : j < d.length), d[j] = memRead s.mem (addr.toNat + j)

/-- R151, R66: an accepted erase in range makes every byte of the range 0xFF and no other. -/
def Obligations.EraseFillsTheRange : Prop :=
  ∀ (s : State) (addr size : Word), s.readyOnDevice → Memory.wf s.mem = true → size.toNat < 256 →
    addr.toNat + size.toNat ≤ s.arraySize →
    ∃ t, exec (.erase addr size) s = .next t ∧ t.responses = s.responses ++ [⟨0x00#8, [], none⟩] ∧
      (∀ x, addr.toNat ≤ x → x < addr.toNat + size.toNat → memRead t.mem x = 0xFF#8) ∧
      (∀ x, x < addr.toNat ∨ addr.toNat + size.toNat ≤ x → memRead t.mem x = memRead s.mem x)

/-- R66: the round-trip law. After an accepted write in range the array holds the data from `addr` on and no other byte
is changed; a following read of the range answers OK with the data. Both complete. -/
def Obligations.WriteThenReadReturnsTheData : Prop :=
  ∀ (s : State) (addr size : Word) (data : List Byte), s.readyOnDevice → Memory.wf s.mem = true →
    data.length = size.toNat → size ≠ 0#32 → addr.toNat + size.toNat ≤ s.arraySize →
    ∃ t u, exec (.write addr size data) s = .next t ∧
      (∀ j (hj : j < data.length), memRead t.mem (addr.toNat + j) = data[j]) ∧
      (∀ x, x < addr.toNat ∨ addr.toNat + size.toNat ≤ x → memRead t.mem x = memRead s.mem x) ∧
      exec (.read addr size) t = .next u ∧ u.mem = t.mem ∧
      u.responses = s.responses ++ [⟨0x00#8, [], none⟩, ⟨0x00#8, data, none⟩]

/-! ### What every step keeps -/

/-- After reset, for every configuration (R31; the device after reset is assumption 8): the array is sound, chip-select
bracketed, the trace listed, the responses legal, and Ready earned. -/
def Obligations.InvariantsHoldAtReset : Prop :=
  ∀ c : Config, (State.resetOf c).arraySound ∧ (State.resetOf c).bracketed ∧ (State.resetOf c).traceListed ∧
    (State.resetOf c).responsesLegal ∧ (State.resetOf c).readyEarned

/-- R40: every step keeps the array in canonical form and within [0, MAX_ADDR]. -/
def Obligations.DeviceArrayStaysSound : Prop :=
  ∀ s t : State, s.arraySound → step s = .next t → t.arraySound

/-- R52: every step keeps chip-select bracketed, whatever the transport answers: whenever the block is idle chip-select is
released, no transaction is open (assumption 11), and the trace is a sequence of whole transactions. -/
def Obligations.ChipSelectStaysBracketed : Prop :=
  ∀ s t : State, s.bracketed → step s = .next t → t.bracketed

/-- R53, R82, R92: every step keeps the trace a sequence of the listed transactions of the mode: WREN or WRDI alone with
CS_BOTH; RDSR and an RX of one byte; a READ frame and an RX of at least one byte; a WRITE frame and a TX; the first call
with CS_ASSERT and the second, straight after it, with CS_RELEASE; TINIT and TDEINIT only between transactions. Only a
block that waits for ever (R226) may stand inside a transaction. -/
def Obligations.OnlyListedCallsAreMade : Prop :=
  ∀ s t : State, s.traceListed → step s = .next t → t.traceListed

/-- R86, R188 (D3): no response ever carries two error bits or an unlisted one. -/
def Obligations.ResponsesStayLegal : Prop :=
  ∀ s t : State, s.responsesLegal → step s = .next t → t.responsesLegal

/-- R33: the block is Ready only after an init whose self-test passed, with no completed deinit since. -/
def Obligations.ReadyIsEarned : Prop :=
  ∀ s t : State, s.readyEarned → step s = .next t → t.readyEarned

/-- R24: no step changes the configuration, nor which transport is behind the block (assumption 7); and with the oracle no
instruction touches the array, the latch or the open transaction of the reference device, which is not there
(assumption 18). -/
def Obligations.ConfigurationAndAbsentDeviceNeverChange : Prop :=
  (∀ s t : State, step s = .next t → t.config = s.config ∧ t.link = s.link) ∧
  ∀ (i : Instr) (s t : State), exec i s = .next t → s.link = .oracle →
    t.mem = s.mem ∧ t.wel = s.wel ∧ t.txn = s.txn

/-- R22: of all instructions only init sets `initialized` and only deinit clears it. -/
def Obligations.OnlyLifecycleWritesInitialized : Prop :=
  ∀ (i : Instr) (s t : State), exec i s = .next t → t.initialized ≠ s.initialized →
    (i = .init ∧ t.initialized = true) ∨ (i = .deinit ∧ t.initialized = false)

/-- R23, R184 (D12; the checks and their limits D2, D4, D5, D11, D15): with ASSERT_FATAL an instruction that fails a check
of its own (read, write, erase: not initialized, a size that is not allowed, a range past the end where it is checked;
the reserved codes always) sets `halted` and does nothing else, no call and no response; no other instruction changes
`halted`, and none clears it (reset does, which is no instruction). -/
def Obligations.OnlyPreconditionsHalt : Prop :=
  (∀ (i : Instr) (s t : State), exec i s = .next t → t.halted ≠ s.halted →
    s.config.assertFatal = true ∧ s.failsCheck i = true ∧ t = { s with halted := true }) ∧
  ∀ (i : Instr) (s : State), s.config.assertFatal = true → s.failsCheck i = true →
    exec i s = .next { s with halted := true }

/-- R233: an instruction makes at most four calls, all recorded behind what was there. -/
def Obligations.AtMostFourCalls : Prop :=
  ∀ (i : Instr) (s t : State), exec i s = .next t → ∃ l, t.trace = s.trace ++ l ∧ l.length ≤ 4

/-- R234: a host operation that runs to its end gives exactly one response; one that hangs or stops the block gives
none. -/
def Obligations.CompletedRequestAnswersOnce : Prop :=
  ∀ (r : HostRequest) (i : Instr) (s t : State), decodeRequest r = .ok i → s.position = .idle → s.halted = false →
    exec i s = .next t →
    (t.position = .idle ∧ t.halted = false → ∃ x, t.responses = s.responses ++ [x]) ∧
    (t.position ≠ .idle ∨ t.halted = true → t.responses = s.responses)
end

