-- ==== Sys2Proof/Laws/Decode.lean ====
section
/-! SUPPORT. The laws of the frame assembler and of the receiver's reading of a frame (R89, R102, R105). -/

namespace Sys2Proof

@[simp] theorem forceFoldBit_read (b c : Bool) :
    forceFoldBit (forceFoldBit codeREAD b) c = forceFoldBit codeREAD c := by
  cases b <;> cases c <;> decide

@[simp] theorem forceFoldBit_write (b c : Bool) :
    forceFoldBit (forceFoldBit codeWRITE b) c = forceFoldBit codeWRITE c := by
  cases b <;> cases c <;> decide

@[simp] theorem forceFoldBit_code_false (i : FrameInstr) : forceFoldBit i.code false = i.code := by
  cases i <;> decide

theorem forceFoldBit_getLsbD (i : FrameInstr) (b : Bool) : (forceFoldBit i.code b).getLsbD foldBit = b := by
  cases i <;> cases b <;> decide

/-- A frame has FRAME_LEN bytes (R102). -/
@[simp] theorem frame_length (m : Mode) (i : FrameInstr) (a : Word) : (frame m i a).length = m.frameLen := by
  cases m <;> rfl

theorem frame_ne_nil (m : Mode) (i : FrameInstr) (a : Word) : frame m i a ≠ [] := by
  cases m <;> simp [frame]

/-- The instruction part of a frame's first byte is the instruction (R89). -/
theorem decodeInstr_frame (m : Mode) (i : FrameInstr) (a : Word) (rest : List Byte) :
    decodeInstr m (frame m i a ++ rest) = some i.code := by
  cases m <;> cases i <;> simp [frame, decodeInstr, instrPart, FrameInstr.code] <;> decide

theorem addr9_frame (i : FrameInstr) (a : Word) :
    addr9 (forceFoldBit i.code (a.getLsbD 8)) (addrLow a) = a.setWidth 9 := by
  unfold addr9
  rw [forceFoldBit_getLsbD]
  ext k hk
  simp only [BitVec.getElem_append, addrLow, BitVec.getElem_setWidth]
  split
  · simp
  · obtain rfl : k = 8 := by omega
    simp

theorem addr16_frame (a : Word) : addr16 (addrMid a) (addrLow a) = a.setWidth 16 := by
  unfold addr16 addrMid addrLow
  ext k hk
  simp only [BitVec.getElem_append, BitVec.getElem_setWidth]
  split
  · simp
  · simp only [BitVec.getElem_extractLsb']
    congr 1; omega

theorem addr24_frame (a : Word) : addr24 (addrHigh a) (addrMid a) (addrLow a) = a.setWidth 24 := by
  unfold addr24 addrHigh addrMid addrLow
  ext k hk
  simp only [BitVec.getElem_append, BitVec.getElem_setWidth]
  split
  · simp
  · split
    · simp only [BitVec.getElem_extractLsb']
      congr 1; omega
    · simp only [BitVec.getElem_extractLsb']
      congr 1; omega

/-- The address a receiver reads from a frame: the bits the format has room for (R89, R105 (3)). -/
theorem decodeAddr_frame (m : Mode) (i : FrameInstr) (a : Word) (rest : List Byte) :
    decodeAddr m (frame m i a ++ rest) = some (a.toNat % 2 ^ m.fieldBits) := by
  cases m
  · simp only [frame, decodeAddr, List.cons_append, List.nil_append, addr9_frame, Mode.fieldBits,
      BitVec.toNat_setWidth]
  · simp only [frame, decodeAddr, List.cons_append, List.nil_append, addr16_frame, Mode.fieldBits,
      BitVec.toNat_setWidth]
  · simp only [frame, decodeAddr, List.cons_append, List.nil_append, addr24_frame, Mode.fieldBits,
      BitVec.toNat_setWidth]

/-- The array of an instance is no larger than what its frames can address. -/
theorem arraySize_dvd (b : AddrBits) : b.arraySize ∣ 2 ^ b.mode.fieldBits := by
  apply Nat.pow_dvd_pow
  unfold AddrBits.mode
  have := b.hi
  split
  · simp [Mode.fieldBits]; omega
  · split <;> simp [Mode.fieldBits] <;> omega

theorem arraySize_pos (b : AddrBits) : 0 < b.arraySize := Nat.pos_of_ne_zero (by simp [AddrBits.arraySize])

/-- The frame of a word made from a 9-bit address carries that address. -/
theorem addr9_setWidth (i : FrameInstr) (a : BitVec 9) :
    addr9 (forceFoldBit i.code ((a.setWidth 32).getLsbD 8)) (addrLow (a.setWidth 32)) = a := by
  rw [addr9_frame]; simp

theorem addr16_setWidth (a : BitVec 16) :
    addr16 (addrMid (a.setWidth 32)) (addrLow (a.setWidth 32)) = a := by
  rw [addr16_frame]; simp

theorem addr24_setWidth (a : BitVec 24) :
    addr24 (addrHigh (a.setWidth 32)) (addrMid (a.setWidth 32)) (addrLow (a.setWidth 32)) = a := by
  rw [addr24_frame]; simp

/-- The bytes that a format I instruction or an unused code begins with (R81). -/
def bareCodes : List Byte := [codeWREN, codeWRDI, codeRDSR, codeWRSR, codeRDID, codeSLEEP, codeFSTRD, codeSNR]

/-- A transaction that begins with none of the bare codes is read as a frame (R85). -/
theorem decodeTransaction_frame {m : Mode} {b : Byte} {rest : List Byte} {rx : Nat} (h : b ∉ bareCodes) :
    decodeTransaction m ⟨b :: rest, rx⟩ = decodeFrame m b rest rx := by
  simp only [bareCodes, List.mem_cons, List.not_mem_nil, or_false, not_or] at h
  simp [decodeTransaction, h]

theorem folded_not_bare (i : FrameInstr) (x : Bool) : forceFoldBit i.code x ∉ bareCodes := by
  cases i <;> cases x <;> decide

theorem code_not_bare (i : FrameInstr) : i.code ∉ bareCodes := by
  cases i <;> decide

@[simp] theorem instrPart_folded (i : FrameInstr) (x : Bool) : instrPart .a9 (forceFoldBit i.code x) = i.code := by
  cases i <;> cases x <;> decide

theorem decodeTransaction_a9 (i : FrameInstr) (x : Bool) (b : Byte) (rest : List Byte) (rx : Nat) :
    decodeTransaction .a9 ⟨forceFoldBit i.code x :: b :: rest, rx⟩ =
      match i with
      | .read => decodeRead (.readA9 (addr9 (forceFoldBit i.code x) b)) rest rx
      | .write => decodeWrite (.writeA9 (addr9 (forceFoldBit i.code x) b)) rest rx := by
  rw [decodeTransaction_frame (folded_not_bare i x)]
  unfold decodeFrame
  rw [instrPart_folded]
  cases i <;> rfl

theorem decodeTransaction_a16 (i : FrameInstr) (b c : Byte) (rest : List Byte) (rx : Nat) :
    decodeTransaction .a16 ⟨i.code :: b :: c :: rest, rx⟩ =
      match i with
      | .read => decodeRead (.readA16 (addr16 b c)) rest rx
      | .write => decodeWrite (.writeA16 (addr16 b c)) rest rx := by
  rw [decodeTransaction_frame (code_not_bare i)]
  cases i <;> rfl

theorem decodeTransaction_a24 (i : FrameInstr) (b c d : Byte) (rest : List Byte) (rx : Nat) :
    decodeTransaction .a24 ⟨i.code :: b :: c :: d :: rest, rx⟩ =
      match i with
      | .read => decodeRead (.readA24 (addr24 b c d)) rest rx
      | .write => decodeWrite (.writeA24 (addr24 b c d)) rest rx := by
  rw [decodeTransaction_frame (code_not_bare i)]
  cases i <;> rfl

theorem addr9_getLsbD_low (b₀ b₁ : Byte) (k : Nat) (hk : k < 8) : (addr9 b₀ b₁).getLsbD k = b₁.getLsbD k := by
  change (BitVec.ofBool (b₀.getLsbD foldBit) ++ b₁ : BitVec (1 + 8)).getLsbD k = _
  rw [BitVec.getLsbD_append, if_pos hk]

theorem addr9_getLsbD_top (b₀ b₁ : Byte) : (addr9 b₀ b₁).getLsbD 8 = b₀.getLsbD foldBit := by
  change (BitVec.ofBool (b₀.getLsbD foldBit) ++ b₁ : BitVec (1 + 8)).getLsbD 8 = _
  rw [BitVec.getLsbD_append, if_neg (by decide)]
  simp

theorem addr16_toNat (b₁ b₂ : Byte) : (addr16 b₁ b₂).toNat = b₁.toNat * 256 + b₂.toNat := by
  change (b₁ ++ b₂ : BitVec (8 + 8)).toNat = _
  rw [BitVec.toNat_append, ← Nat.shiftLeft_add_eq_or_of_lt b₂.isLt, Nat.shiftLeft_eq]

theorem addr24_toNat (b₁ b₂ b₃ : Byte) :
    (addr24 b₁ b₂ b₃).toNat = b₁.toNat * 65536 + b₂.toNat * 256 + b₃.toNat := by
  change (b₁ ++ b₂ ++ b₃ : BitVec (8 + 8 + 8)).toNat = _
  rw [BitVec.toNat_append, ← Nat.shiftLeft_add_eq_or_of_lt b₃.isLt, Nat.shiftLeft_eq, BitVec.toNat_append,
    ← Nat.shiftLeft_add_eq_or_of_lt b₂.isLt, Nat.shiftLeft_eq]
  omega

theorem addrLow_toNat (a : Word) : (addrLow a).toNat = a.toNat % 256 := by
  simp [addrLow, BitVec.extractLsb'_toNat]

theorem addrMid_toNat (a : Word) : (addrMid a).toNat = a.toNat / 256 % 256 := by
  simp [addrMid, BitVec.extractLsb'_toNat, Nat.shiftRight_eq_div_pow]

theorem addrHigh_toNat (a : Word) : (addrHigh a).toNat = a.toNat / 65536 % 256 := by
  simp [addrHigh, BitVec.extractLsb'_toNat, Nat.shiftRight_eq_div_pow]

/-- The frame of a decoded A16 address has the bytes it was decoded from. -/
theorem frame_addr16 (i : FrameInstr) (b₁ b₂ : Byte) :
    frame .a16 i ((addr16 b₁ b₂).setWidth 32) = [i.code, b₁, b₂] := by
  have h₁ := b₁.isLt
  have h₂ := b₂.isLt
  simp only [frame, List.cons.injEq, true_and, and_true]
  constructor <;> apply BitVec.eq_of_toNat_eq
  · rw [addrMid_toNat, BitVec.toNat_setWidth, addr16_toNat]; omega
  · rw [addrLow_toNat, BitVec.toNat_setWidth, addr16_toNat]; omega

/-- The frame of a decoded A24 address has the bytes it was decoded from. -/
theorem frame_addr24 (i : FrameInstr) (b₁ b₂ b₃ : Byte) :
    frame .a24 i ((addr24 b₁ b₂ b₃).setWidth 32) = [i.code, b₁, b₂, b₃] := by
  have h₁ := b₁.isLt
  have h₂ := b₂.isLt
  have h₃ := b₃.isLt
  simp only [frame, List.cons.injEq, true_and, and_true]
  refine ⟨?_, ?_, ?_⟩ <;> apply BitVec.eq_of_toNat_eq
  · rw [addrHigh_toNat, BitVec.toNat_setWidth, addr24_toNat]; omega
  · rw [addrMid_toNat, BitVec.toNat_setWidth, addr24_toNat]; omega
  · rw [addrLow_toNat, BitVec.toNat_setWidth, addr24_toNat]; omega

/-- Clearing the fold bit and putting back what stood there gives the byte. -/
theorem forceFoldBit_restore (b : Byte) : forceFoldBit (forceFoldBit b false) (b.getLsbD foldBit) = b := by
  ext k hk
  interval_cases k <;> cases h : b.getLsbD foldBit <;> simp_all [forceFoldBit, foldBit]

/-- A byte whose instruction part in mode A9 is that of a frame is the folded byte of that frame. -/
theorem eq_folded_of_instrPart {i : FrameInstr} {b : Byte} (h : instrPart .a9 b = i.code) :
    b = forceFoldBit i.code (b.getLsbD foldBit) := by
  rw [← h]
  exact (forceFoldBit_restore b).symm

/-- The frame of a decoded A9 address has the bytes it was decoded from. -/
theorem frame_addr9 {i : FrameInstr} {b₀ : Byte} (b₁ : Byte) (h : instrPart .a9 b₀ = i.code) :
    frame .a9 i ((addr9 b₀ b₁).setWidth 32) = [b₀, b₁] := by
  have h₁ : ((addr9 b₀ b₁).setWidth 32).getLsbD 8 = b₀.getLsbD foldBit := by
    rw [BitVec.getLsbD_setWidth, addr9_getLsbD_top]; rfl
  have h₂ : addrLow ((addr9 b₀ b₁).setWidth 32) = b₁ := by
    unfold addrLow
    ext k hk
    rw [BitVec.getElem_extractLsb', BitVec.getLsbD_setWidth, Nat.zero_add, addr9_getLsbD_low _ _ _ hk]
    simp [BitVec.getLsbD_eq_getElem hk]
    omega
  simp only [frame, h₁, h₂]
  rw [← eq_folded_of_instrPart h]

end Sys2Proof
end

