-- ==== Sys2Proof/Laws/Memory.lean ====
section
/-! SUPPORT. The laws of the device array: a read after a write, and that every write keeps the canonical form and the
bounds of the array. -/

namespace Sys2Proof.Machine

theorem memAbove_cons {a : Nat} {c : Host.Cell} {m : Memory} :
    memAbove a (c :: m) = true ↔ a < c.1 ∧ memAbove a m = true := by
  simp [memAbove]

theorem memAbove_of_lt {a b : Nat} {m : Memory} (hab : a ≤ b) (h : memAbove b m = true) :
    memAbove a m = true := by
  simp only [memAbove, List.all_eq_true, decide_eq_true_eq] at *
  intro c hc
  exact Nat.lt_of_le_of_lt hab (h c hc)

/-- An address below every listed one reads as unlisted. -/
theorem memRead_of_above {a : Nat} : ∀ {m : Memory}, memAbove a m = true → memRead m a = unlistedByte
  | [], _ => rfl
  | c :: rest, h => by
    obtain ⟨hc, hr⟩ := memAbove_cons.mp h
    simp only [memRead, if_neg (Nat.ne_of_gt hc)]
    exact memRead_of_above hr

theorem Memory.wf_cons {c : Host.Cell} {m : Memory} :
    Memory.wf (c :: m) = true ↔ c.2 ≠ unlistedByte ∧ memAbove c.1 m = true ∧ Memory.wf m = true := by
  simp [Memory.wf, and_assoc]

theorem memCons_wf {a : Nat} {b : Byte} {m : Memory} (ha : memAbove a m = true) (h : Memory.wf m = true) :
    Memory.wf (memCons a b m) = true := by
  unfold memCons
  split
  · exact h
  · exact Memory.wf_cons.mpr ⟨‹_›, ha, h⟩

theorem memAbove_memCons {x a : Nat} {b : Byte} {m : Memory} (hx : x < a) (h : memAbove x m = true) :
    memAbove x (memCons a b m) = true := by
  unfold memCons
  split
  · exact h
  · exact memAbove_cons.mpr ⟨hx, h⟩

theorem memAbove_memWrite {x a : Nat} {b : Byte} (hx : x < a) :
    ∀ {m : Memory}, memAbove x m = true → memAbove x (memWrite m a b) = true
  | [], _ => memAbove_memCons hx rfl
  | c :: rest, h => by
    obtain ⟨hc, hr⟩ := memAbove_cons.mp h
    unfold memWrite
    split
    · exact memAbove_cons.mpr ⟨hc, memAbove_memWrite hx hr⟩
    · split
      · exact memAbove_memCons hx hr
      · exact memAbove_memCons hx h

/-- A write keeps the canonical form. -/
theorem memWrite_wf {a : Nat} {b : Byte} : ∀ {m : Memory}, Memory.wf m = true → Memory.wf (memWrite m a b) = true
  | [], _ => memCons_wf rfl rfl
  | c :: rest, h => by
    obtain ⟨hc, ha, hr⟩ := Memory.wf_cons.mp h
    unfold memWrite
    split
    · exact Memory.wf_cons.mpr ⟨hc, memAbove_memWrite ‹_› ha, memWrite_wf hr⟩
    · split
      · exact memCons_wf (by simpa [*] using ha) hr
      · exact memCons_wf (memAbove_cons.mpr ⟨by omega, memAbove_of_lt (by omega) ha⟩) h

theorem memWithin_memCons {n a : Nat} {b : Byte} {m : Memory} (ha : a < n) (h : memWithin n m = true) :
    memWithin n (memCons a b m) = true := by
  unfold memCons
  split
  · exact h
  · simpa [memWithin, ha] using h

/-- A write below `n` keeps the array below `n`. -/
theorem memWrite_within {n a : Nat} {b : Byte} (ha : a < n) :
    ∀ {m : Memory}, memWithin n m = true → memWithin n (memWrite m a b) = true
  | [], _ => memWithin_memCons ha rfl
  | c :: rest, h => by
    have hc : c.1 < n ∧ memWithin n rest = true := by simpa [memWithin] using h
    unfold memWrite
    split
    · have := memWrite_within (b := b) ha hc.2
      simpa [memWithin, hc.1] using this
    · split
      · exact memWithin_memCons ha hc.2
      · exact memWithin_memCons ha h

theorem memRead_memCons_same {a : Nat} {b : Byte} {m : Memory} (h : memAbove a m = true) :
    memRead (memCons a b m) a = b := by
  unfold memCons
  split
  · rw [memRead_of_above h, ‹b = unlistedByte›]
  · simp [memRead]

theorem memRead_memCons_other {a x : Nat} {b : Byte} {m : Memory} (h : x ≠ a) :
    memRead (memCons a b m) x = memRead m x := by
  unfold memCons
  split
  · rfl
  · simp [memRead, Ne.symm h]

/-- A read of the address just written gives the byte written. -/
theorem memRead_memWrite_same {a : Nat} {b : Byte} :
    ∀ {m : Memory}, Memory.wf m = true → memRead (memWrite m a b) a = b
  | [], _ => memRead_memCons_same rfl
  | c :: rest, h => by
    obtain ⟨-, ha, hr⟩ := Memory.wf_cons.mp h
    unfold memWrite
    split
    · rename_i hlt
      simp only [memRead, if_neg (Nat.ne_of_lt hlt)]
      exact memRead_memWrite_same hr
    · split
      · rename_i heq
        exact memRead_memCons_same (by simpa [heq] using ha)
      · exact memRead_memCons_same (memAbove_cons.mpr ⟨by omega, memAbove_of_lt (by omega) ha⟩)

/-- A write leaves every other address alone. -/
theorem memRead_memWrite_other {a x : Nat} {b : Byte} (hx : x ≠ a) :
    ∀ {m : Memory}, memRead (memWrite m a b) x = memRead m x
  | [] => memRead_memCons_other hx
  | c :: rest => by
    unfold memWrite
    split
    · simp only [memRead, memRead_memWrite_other hx]
    · split
      · rename_i heq
        rw [memRead_memCons_other hx]
        have : c.1 ≠ x := by omega
        simp [memRead, this]
      · exact memRead_memCons_other hx

/-- The array after reset lists nothing, which is canonical. -/
theorem reset_mem_wf (c : Config) : Memory.wf (State.resetOf c).mem = true := rfl

end Sys2Proof.Machine
end

