-- ==== Sys2Proof/Laws/Device.lean ====
section
/-! SUPPORT. What the reference device can do: the frame of its operations, that its array stays sound, and what the
transactions of the block do to it (R60 to R66). -/

namespace Sys2Proof.Machine

/-- `t` is `s` but for the parts that the device's calls can change. -/
def deviceFrame (s t : State) : Prop :=
  t = { s with cs := t.cs, wel := t.wel, mem := t.mem, txn := t.txn }

theorem deviceFrame_refl (s : State) : deviceFrame s s := rfl

theorem deviceFrame_trans {s t u : State} (h₁ : deviceFrame s t) (h₂ : deviceFrame t u) : deviceFrame s u := by
  unfold deviceFrame at *
  rw [h₂, h₁]

theorem deviceInput_frame (s : State) (b : Byte) : deviceFrame s (deviceInput s b) := by
  unfold deviceInput deviceFrame
  dsimp only
  repeat' split
  all_goals rfl

theorem deviceInput_cs (s : State) (b : Byte) : (deviceInput s b).cs = s.cs := by
  unfold deviceInput; dsimp only; repeat' split
  all_goals rfl

theorem deviceInput_wel (s : State) (b : Byte) : (deviceInput s b).wel = s.wel := by
  unfold deviceInput; dsimp only; repeat' split
  all_goals rfl

@[simp] theorem deviceInput_txn (s : State) (b : Byte) : (deviceInput s b).txn = s.txn ++ [.inp b] := by
  unfold deviceInput; dsimp only; repeat' split
  all_goals rfl

theorem txnAddr_lt {b : AddrBits} {f : List Byte} {j a : Nat} (h : txnAddr b f j = some a) : a < b.arraySize := by
  unfold txnAddr at h
  obtain ⟨x, -, rfl⟩ := Option.map_eq_some_iff.mp h
  exact Nat.mod_lt _ (arraySize_pos b)

theorem deviceInput_sound {s : State} {b : Byte} (h : s.arraySound) : (deviceInput s b).arraySound := by
  unfold deviceInput
  dsimp only
  split
  · split
    · exact ⟨memWrite_wf h.1, memWrite_within (txnAddr_lt ‹_›) h.2⟩
    · exact h
  · exact h

theorem deviceInputs_spec (bs : List Byte) : ∀ s : State,
    deviceFrame s (bs.foldl deviceInput s) ∧ (bs.foldl deviceInput s).cs = s.cs ∧
    (bs.foldl deviceInput s).wel = s.wel ∧ (bs.foldl deviceInput s).txn = s.txn ++ bs.map .inp ∧
    (s.arraySound → (bs.foldl deviceInput s).arraySound) := by
  induction bs with
  | nil => intro s; exact ⟨rfl, rfl, rfl, by simp, id⟩
  | cons b bs ih =>
    intro s
    obtain ⟨h₁, h₂, h₃, h₄, h₅⟩ := ih (deviceInput s b)
    refine ⟨deviceFrame_trans (deviceInput_frame s b) h₁, ?_, ?_, ?_, fun h => h₅ (deviceInput_sound h)⟩
    · exact h₂.trans (deviceInput_cs s b)
    · exact h₃.trans (deviceInput_wel s b)
    · simp only [List.foldl_cons, h₄, deviceInput_txn, List.map_cons, List.append_assoc, List.singleton_append]

/-- Output requests change nothing but the transaction, and yield as many bytes as were asked for. -/
theorem deviceOutputs_spec : ∀ (n : Nat) (s : State) (bs : List Byte) (t : State),
    deviceOutputs n s = some (bs, t) → t = { s with txn := t.txn } ∧ bs.length = n
  | 0, s, bs, t, h => by
    simp only [deviceOutputs, Option.some.injEq, Prod.mk.injEq] at h
    obtain ⟨rfl, rfl⟩ := h
    exact ⟨rfl, rfl⟩
  | n + 1, s, bs, t, h => by
    unfold deviceOutputs at h
    split at h
    · cases h
    · split at h
      · cases h
      · rename_i b _ cs u hu
        simp only [Option.some.injEq, Prod.mk.injEq] at h
        obtain ⟨rfl, rfl⟩ := h
        obtain ⟨h₁, h₂⟩ := deviceOutputs_spec n _ _ _ hu
        exact ⟨by rw [h₁], by simp [h₂]⟩

/-! ### The transactions of the block on the device -/

@[simp] theorem txnInputs_append (t u : List TxnItem) : txnInputs (t ++ u) = txnInputs t ++ txnInputs u := by
  simp [txnInputs]

@[simp] theorem txnInputs_map_inp (bs : List Byte) : txnInputs (bs.map .inp) = bs := by
  simp [txnInputs]

@[simp] theorem txnInputs_nil : txnInputs [] = [] := rfl

@[simp] theorem txnInputs_inp (b : Byte) : txnInputs [.inp b] = [b] := rfl

@[simp] theorem txnInputs_out (b : Byte) : txnInputs [.out b] = [] := rfl

@[simp] theorem txnOutputs_append (t u : List TxnItem) : txnOutputs (t ++ u) = txnOutputs t + txnOutputs u := by
  simp [txnOutputs]

@[simp] theorem txnOutputs_map_inp (bs : List Byte) : txnOutputs (bs.map .inp) = 0 := by
  simp [txnOutputs]

@[simp] theorem txnOutputs_nil : txnOutputs [] = 0 := rfl

@[simp] theorem txnOutputs_out (b : Byte) : txnOutputs [.out b] = 1 := rfl

/-- A transaction that begins with a READ frame is a READ (R62). -/
theorem txnKind_frame_read (m : Mode) (a : Word) (rest : List Byte) :
    txnKind m (frame m .read a ++ rest) = .read := by
  cases m
  · unfold frame
    generalize a.getLsbD 8 = x
    cases x <;> rfl
  all_goals rfl

/-- A transaction that begins with a WRITE frame is a WRITE (R62). -/
theorem txnKind_frame_write (m : Mode) (a : Word) (rest : List Byte) :
    txnKind m (frame m .write a ++ rest) = .write := by
  cases m
  · unfold frame
    generalize a.getLsbD 8 = x
    cases x <;> rfl
  all_goals rfl

/-- The address of data byte `j` of a transaction that begins with a frame of the instance (R62, R64): `addr + j`
modulo 2^ADDR_BITS. -/
theorem txnAddr_frame (b : AddrBits) (i : FrameInstr) (a : Word) (rest : List Byte) (j : Nat) :
    txnAddr b (frame b.mode i a ++ rest) j = some ((a.toNat + j) % b.arraySize) := by
  unfold txnAddr
  rw [decodeAddr_frame, Option.map_some, Nat.add_mod, Nat.mod_mod_of_dvd _ (arraySize_dvd b), ← Nat.add_mod]

/-- Bytes that do not go beyond the frame store nothing (R62). -/
theorem deviceInputs_short (bs : List Byte) : ∀ s : State,
    (txnInputs s.txn).length + bs.length ≤ s.mode.frameLen → (bs.foldl deviceInput s).mem = s.mem := by
  induction bs with
  | nil => intro s _; rfl
  | cons b bs ih =>
    intro s h
    simp only [List.length_cons] at h
    have hm : (deviceInput s b).mode = s.mode := by rw [deviceInput_frame s b]; rfl
    have hs : (deviceInput s b).mem = s.mem := by
      unfold deviceInput
      rw [if_neg (by omega)]
    rw [List.foldl_cons, ih _ (by rw [hm, deviceInput_txn]; simp; omega), hs]

/-- A payload that is not longer than the array reaches no address twice. -/
theorem payload_once {a j k n : Nat} (hjk : j < k) (hk : k < n) : (a + k) % n ≠ (a + j) % n := fun e => by
  have hd : n ∣ k - j := by
    have := Nat.dvd_of_mod_eq_zero (Nat.sub_mod_eq_zero_of_mod_eq e)
    rwa [show a + k - (a + j) = k - j by omega] at this
  exact absurd (Nat.le_of_dvd (by omega) hd) (by omega)

/-- The payload of a WRITE with the latch set (R62): what one address reads as afterwards. Where the payload reaches an
address more than once, the last byte wins. -/
theorem deviceInputs_payload (a : Word) (data : List Byte) : ∀ (s : State) (done : List Byte) (x : Nat),
    s.txn = (frame s.mode .write a ++ done).map .inp → s.wel = true →
    ((∀ j < data.length, (a.toNat + (done.length + j)) % s.arraySize ≠ x) →
      memRead (data.foldl deviceInput s).mem x = memRead s.mem x) ∧
    (Memory.wf s.mem = true → ∀ j (h : j < data.length), (a.toNat + (done.length + j)) % s.arraySize = x →
      (∀ k, j < k → k < data.length → (a.toNat + (done.length + k)) % s.arraySize ≠ x) →
        memRead (data.foldl deviceInput s).mem x = data[j]) := by
  induction data with
  | nil => intro s done x _ _; exact ⟨fun _ => rfl, fun _ j h => absurd h (by simp)⟩
  | cons b data ih =>
    intro s done x htxn hwel
    have hst : (deviceInput s b).mem = memWrite s.mem ((a.toNat + done.length) % s.arraySize) b := by
      have hlen : (frame s.mode .write a ++ done).length - s.mode.frameLen = done.length := by simp
      unfold deviceInput
      rw [htxn, txnInputs_map_inp, if_pos ⟨txnKind_frame_write _ _ _, by simp, hwel⟩, hlen]
      unfold State.mode
      rw [txnAddr_frame]
      rfl
    have hm : (deviceInput s b).mode = s.mode := by rw [deviceInput_frame s b]; rfl
    have hz : (deviceInput s b).arraySize = s.arraySize := by rw [deviceInput_frame s b]; rfl
    obtain ⟨h₁, h₂⟩ := ih (deviceInput s b) (done ++ [b]) x
      (by rw [deviceInput_txn, htxn, hm]; simp) (by rw [deviceInput_wel, hwel])
    rw [hz] at h₁ h₂
    simp only [List.length_append, List.length_singleton] at h₁ h₂
    refine ⟨fun h => ?_, fun hwf j hj hx hlast => ?_⟩
    · rw [List.foldl_cons, h₁, hst, memRead_memWrite_other]
      · have := h 0 (by simp)
        exact fun e => this (by simpa using e.symm)
      · intro j hj
        have := h (j + 1) (by simpa using hj)
        rwa [show done.length + (j + 1) = done.length + 1 + j by omega] at this
    · simp only [List.length_cons] at hj hlast
      have hnext : ∀ k, j < k + 1 → k < data.length → (a.toNat + (done.length + 1 + k)) % s.arraySize ≠ x :=
        fun k h h' => by
          have := hlast (k + 1) h (by omega)
          rwa [show done.length + (k + 1) = done.length + 1 + k by omega] at this
      rw [List.foldl_cons]
      cases j with
      | zero =>
        rw [h₁, hst, List.getElem_cons_zero, ← hx]
        · exact memRead_memWrite_same hwf
        · exact fun k hk => hnext k (by omega) hk
      | succ j =>
        rw [List.getElem_cons_succ]
        refine h₂ ?_ j (by omega) ?_ fun k h => hnext k (by omega)
        · rw [hst]; exact memWrite_wf hwf
        · rw [← hx]; congr 1; omega

/-- The payload of a WRITE with the latch clear is dropped (R62). -/
theorem deviceInputs_latchClear (data : List Byte) : ∀ s : State, s.wel = false →
    (data.foldl deviceInput s).mem = s.mem := by
  induction data with
  | nil => intro s _; rfl
  | cons b data ih =>
    intro s h
    have hs : (deviceInput s b).mem = s.mem := by
      unfold deviceInput
      rw [if_neg (by simp [h])]
    rw [List.foldl_cons, ih _ (by rw [deviceInput_wel, h]), hs]

/-- The output requests of a READ transaction (R63): the bytes of the array from the address on. -/
theorem deviceOutputs_read (a : Word) : ∀ (n : Nat) (s : State),
    txnInputs s.txn = frame s.mode .read a →
    ∃ t, deviceOutputs n s = some ((List.range' (txnOutputs s.txn) n).map
      (fun j => memRead s.mem ((a.toNat + j) % s.arraySize)), t) ∧ txnInputs t.txn = frame s.mode .read a
  | 0, s, h => ⟨s, rfl, h⟩
  | n + 1, s, h => by
    have hb : deviceOutputByte s = some (memRead s.mem ((a.toNat + txnOutputs s.txn) % s.arraySize)) := by
      have hk := txnKind_frame_read s.mode a []
      have ha := txnAddr_frame s.config.addrBits .read a [] (txnOutputs s.txn)
      rw [List.append_nil] at hk ha
      unfold deviceOutputByte
      rw [h, hk]
      unfold State.mode
      simp only [ha, Option.map_some]
      rfl
    obtain ⟨t, h₁, h₂⟩ := deviceOutputs_read a n
      { s with txn := s.txn ++ [.out (memRead s.mem ((a.toNat + txnOutputs s.txn) % s.arraySize))] }
      (by rw [txnInputs_append, h]; simp; rfl)
    refine ⟨t, ?_, h₂⟩
    rw [deviceOutputs, hb]
    dsimp only
    rw [h₁]
    simp only [List.range'_succ, List.map_cons, txnOutputs_append, txnOutputs_out]
    rfl

end Sys2Proof.Machine
end

