-- ==== Sys2Proof/Laws/State.lean ====
section
/-! SUPPORT. One lemma per field per named update of the state, each by rfl, so that no later proof unfolds an update. -/

namespace Sys2Proof.Machine

variable (s : State)

@[simp] theorem State.record_config (e : TraceItem) : (s.record e).config = s.config := rfl
@[simp] theorem State.record_initialized (e : TraceItem) : (s.record e).initialized = s.initialized := rfl
@[simp] theorem State.record_halted (e : TraceItem) : (s.record e).halted = s.halted := rfl
@[simp] theorem State.record_position (e : TraceItem) : (s.record e).position = s.position := rfl
@[simp] theorem State.record_inbox (e : TraceItem) : (s.record e).inbox = s.inbox := rfl
@[simp] theorem State.record_responses (e : TraceItem) : (s.record e).responses = s.responses := rfl
@[simp] theorem State.record_trace (e : TraceItem) : (s.record e).trace = s.trace ++ [e] := rfl
@[simp] theorem State.record_link (e : TraceItem) : (s.record e).link = s.link := rfl
@[simp] theorem State.record_script (e : TraceItem) : (s.record e).script = s.script := rfl
@[simp] theorem State.record_draws (e : TraceItem) : (s.record e).draws = s.draws := rfl
@[simp] theorem State.record_cs (e : TraceItem) : (s.record e).cs = s.cs := rfl
@[simp] theorem State.record_up (e : TraceItem) : (s.record e).up = s.up := rfl
@[simp] theorem State.record_wel (e : TraceItem) : (s.record e).wel = s.wel := rfl
@[simp] theorem State.record_mem (e : TraceItem) : (s.record e).mem = s.mem := rfl
@[simp] theorem State.record_txn (e : TraceItem) : (s.record e).txn = s.txn := rfl
@[simp] theorem State.record_primResult (e : TraceItem) : (s.record e).primResult = s.primResult := rfl

@[simp] theorem State.answerHost_config (r : Response) : (s.answerHost r).config = s.config := rfl
@[simp] theorem State.answerHost_initialized (r : Response) : (s.answerHost r).initialized = s.initialized := rfl
@[simp] theorem State.answerHost_halted (r : Response) : (s.answerHost r).halted = s.halted := rfl
@[simp] theorem State.answerHost_position (r : Response) : (s.answerHost r).position = s.position := rfl
@[simp] theorem State.answerHost_inbox (r : Response) : (s.answerHost r).inbox = s.inbox := rfl
@[simp] theorem State.answerHost_responses (r : Response) : (s.answerHost r).responses = s.responses ++ [r] := rfl
@[simp] theorem State.answerHost_trace (r : Response) : (s.answerHost r).trace = s.trace := rfl
@[simp] theorem State.answerHost_link (r : Response) : (s.answerHost r).link = s.link := rfl
@[simp] theorem State.answerHost_script (r : Response) : (s.answerHost r).script = s.script := rfl
@[simp] theorem State.answerHost_draws (r : Response) : (s.answerHost r).draws = s.draws := rfl
@[simp] theorem State.answerHost_cs (r : Response) : (s.answerHost r).cs = s.cs := rfl
@[simp] theorem State.answerHost_up (r : Response) : (s.answerHost r).up = s.up := rfl
@[simp] theorem State.answerHost_wel (r : Response) : (s.answerHost r).wel = s.wel := rfl
@[simp] theorem State.answerHost_mem (r : Response) : (s.answerHost r).mem = s.mem := rfl
@[simp] theorem State.answerHost_txn (r : Response) : (s.answerHost r).txn = s.txn := rfl
@[simp] theorem State.answerHost_primResult (r : Response) : (s.answerHost r).primResult = s.primResult := rfl

@[simp] theorem State.setInitialized_config (b : Bool) : (s.setInitialized b).config = s.config := rfl
@[simp] theorem State.setInitialized_initialized (b : Bool) : (s.setInitialized b).initialized = b := rfl
@[simp] theorem State.setInitialized_halted (b : Bool) : (s.setInitialized b).halted = s.halted := rfl
@[simp] theorem State.setInitialized_position (b : Bool) : (s.setInitialized b).position = s.position := rfl
@[simp] theorem State.setInitialized_inbox (b : Bool) : (s.setInitialized b).inbox = s.inbox := rfl
@[simp] theorem State.setInitialized_responses (b : Bool) : (s.setInitialized b).responses = s.responses := rfl
@[simp] theorem State.setInitialized_trace (b : Bool) : (s.setInitialized b).trace = s.trace := rfl
@[simp] theorem State.setInitialized_link (b : Bool) : (s.setInitialized b).link = s.link := rfl
@[simp] theorem State.setInitialized_script (b : Bool) : (s.setInitialized b).script = s.script := rfl
@[simp] theorem State.setInitialized_draws (b : Bool) : (s.setInitialized b).draws = s.draws := rfl
@[simp] theorem State.setInitialized_cs (b : Bool) : (s.setInitialized b).cs = s.cs := rfl
@[simp] theorem State.setInitialized_up (b : Bool) : (s.setInitialized b).up = s.up := rfl
@[simp] theorem State.setInitialized_wel (b : Bool) : (s.setInitialized b).wel = s.wel := rfl
@[simp] theorem State.setInitialized_mem (b : Bool) : (s.setInitialized b).mem = s.mem := rfl
@[simp] theorem State.setInitialized_txn (b : Bool) : (s.setInitialized b).txn = s.txn := rfl
@[simp] theorem State.setInitialized_primResult (b : Bool) : (s.setInitialized b).primResult = s.primResult := rfl

@[simp] theorem State.halt_config : s.halt.config = s.config := rfl
@[simp] theorem State.halt_initialized : s.halt.initialized = s.initialized := rfl
@[simp] theorem State.halt_halted : s.halt.halted = true := rfl
@[simp] theorem State.halt_position : s.halt.position = s.position := rfl
@[simp] theorem State.halt_inbox : s.halt.inbox = s.inbox := rfl
@[simp] theorem State.halt_responses : s.halt.responses = s.responses := rfl
@[simp] theorem State.halt_trace : s.halt.trace = s.trace := rfl
@[simp] theorem State.halt_link : s.halt.link = s.link := rfl
@[simp] theorem State.halt_script : s.halt.script = s.script := rfl
@[simp] theorem State.halt_draws : s.halt.draws = s.draws := rfl
@[simp] theorem State.halt_cs : s.halt.cs = s.cs := rfl
@[simp] theorem State.halt_up : s.halt.up = s.up := rfl
@[simp] theorem State.halt_wel : s.halt.wel = s.wel := rfl
@[simp] theorem State.halt_mem : s.halt.mem = s.mem := rfl
@[simp] theorem State.halt_txn : s.halt.txn = s.txn := rfl
@[simp] theorem State.halt_primResult : s.halt.primResult = s.primResult := rfl

@[simp] theorem State.resetBlock_config : s.resetBlock.config = s.config := rfl
@[simp] theorem State.resetBlock_initialized : s.resetBlock.initialized = false := rfl
@[simp] theorem State.resetBlock_halted : s.resetBlock.halted = false := rfl
@[simp] theorem State.resetBlock_position : s.resetBlock.position = s.position := rfl
@[simp] theorem State.resetBlock_inbox : s.resetBlock.inbox = s.inbox := rfl
@[simp] theorem State.resetBlock_responses : s.resetBlock.responses = s.responses := rfl
@[simp] theorem State.resetBlock_trace : s.resetBlock.trace = s.trace := rfl
@[simp] theorem State.resetBlock_link : s.resetBlock.link = s.link := rfl
@[simp] theorem State.resetBlock_script : s.resetBlock.script = s.script := rfl
@[simp] theorem State.resetBlock_draws : s.resetBlock.draws = s.draws := rfl
@[simp] theorem State.resetBlock_cs : s.resetBlock.cs = s.cs := rfl
@[simp] theorem State.resetBlock_up : s.resetBlock.up = s.up := rfl
@[simp] theorem State.resetBlock_wel : s.resetBlock.wel = s.wel := rfl
@[simp] theorem State.resetBlock_mem : s.resetBlock.mem = s.mem := rfl
@[simp] theorem State.resetBlock_txn : s.resetBlock.txn = s.txn := rfl
@[simp] theorem State.resetBlock_primResult : s.resetBlock.primResult = s.primResult := rfl

@[simp] theorem State.withInbox_config (l : List Input) : (s.withInbox l).config = s.config := rfl
@[simp] theorem State.withInbox_initialized (l : List Input) : (s.withInbox l).initialized = s.initialized := rfl
@[simp] theorem State.withInbox_halted (l : List Input) : (s.withInbox l).halted = s.halted := rfl
@[simp] theorem State.withInbox_position (l : List Input) : (s.withInbox l).position = s.position := rfl
@[simp] theorem State.withInbox_inbox (l : List Input) : (s.withInbox l).inbox = l := rfl
@[simp] theorem State.withInbox_responses (l : List Input) : (s.withInbox l).responses = s.responses := rfl
@[simp] theorem State.withInbox_trace (l : List Input) : (s.withInbox l).trace = s.trace := rfl
@[simp] theorem State.withInbox_link (l : List Input) : (s.withInbox l).link = s.link := rfl
@[simp] theorem State.withInbox_script (l : List Input) : (s.withInbox l).script = s.script := rfl
@[simp] theorem State.withInbox_draws (l : List Input) : (s.withInbox l).draws = s.draws := rfl
@[simp] theorem State.withInbox_cs (l : List Input) : (s.withInbox l).cs = s.cs := rfl
@[simp] theorem State.withInbox_up (l : List Input) : (s.withInbox l).up = s.up := rfl
@[simp] theorem State.withInbox_wel (l : List Input) : (s.withInbox l).wel = s.wel := rfl
@[simp] theorem State.withInbox_mem (l : List Input) : (s.withInbox l).mem = s.mem := rfl
@[simp] theorem State.withInbox_txn (l : List Input) : (s.withInbox l).txn = s.txn := rfl
@[simp] theorem State.withInbox_primResult (l : List Input) : (s.withInbox l).primResult = s.primResult := rfl

@[simp] theorem State.waitFor_config (c : Call) : (s.waitFor c).config = s.config := rfl
@[simp] theorem State.waitFor_initialized (c : Call) : (s.waitFor c).initialized = s.initialized := rfl
@[simp] theorem State.waitFor_halted (c : Call) : (s.waitFor c).halted = s.halted := rfl
@[simp] theorem State.waitFor_position (c : Call) : (s.waitFor c).position = .waiting c := rfl
@[simp] theorem State.waitFor_inbox (c : Call) : (s.waitFor c).inbox = s.inbox := rfl
@[simp] theorem State.waitFor_responses (c : Call) : (s.waitFor c).responses = s.responses := rfl
@[simp] theorem State.waitFor_trace (c : Call) : (s.waitFor c).trace = s.trace := rfl
@[simp] theorem State.waitFor_link (c : Call) : (s.waitFor c).link = s.link := rfl
@[simp] theorem State.waitFor_script (c : Call) : (s.waitFor c).script = s.script := rfl
@[simp] theorem State.waitFor_draws (c : Call) : (s.waitFor c).draws = s.draws := rfl
@[simp] theorem State.waitFor_cs (c : Call) : (s.waitFor c).cs = s.cs := rfl
@[simp] theorem State.waitFor_up (c : Call) : (s.waitFor c).up = s.up := rfl
@[simp] theorem State.waitFor_wel (c : Call) : (s.waitFor c).wel = s.wel := rfl
@[simp] theorem State.waitFor_mem (c : Call) : (s.waitFor c).mem = s.mem := rfl
@[simp] theorem State.waitFor_txn (c : Call) : (s.waitFor c).txn = s.txn := rfl
@[simp] theorem State.waitFor_primResult (c : Call) : (s.waitFor c).primResult = s.primResult := rfl

@[simp] theorem State.returnPrim_config (r : PrimResult) : (s.returnPrim r).config = s.config := rfl
@[simp] theorem State.returnPrim_initialized (r : PrimResult) : (s.returnPrim r).initialized = s.initialized := rfl
@[simp] theorem State.returnPrim_halted (r : PrimResult) : (s.returnPrim r).halted = s.halted := rfl
@[simp] theorem State.returnPrim_position (r : PrimResult) : (s.returnPrim r).position = s.position := rfl
@[simp] theorem State.returnPrim_inbox (r : PrimResult) : (s.returnPrim r).inbox = s.inbox := rfl
@[simp] theorem State.returnPrim_responses (r : PrimResult) : (s.returnPrim r).responses = s.responses := rfl
@[simp] theorem State.returnPrim_trace (r : PrimResult) : (s.returnPrim r).trace = s.trace := rfl
@[simp] theorem State.returnPrim_link (r : PrimResult) : (s.returnPrim r).link = s.link := rfl
@[simp] theorem State.returnPrim_script (r : PrimResult) : (s.returnPrim r).script = s.script := rfl
@[simp] theorem State.returnPrim_draws (r : PrimResult) : (s.returnPrim r).draws = s.draws := rfl
@[simp] theorem State.returnPrim_cs (r : PrimResult) : (s.returnPrim r).cs = s.cs := rfl
@[simp] theorem State.returnPrim_up (r : PrimResult) : (s.returnPrim r).up = s.up := rfl
@[simp] theorem State.returnPrim_wel (r : PrimResult) : (s.returnPrim r).wel = s.wel := rfl
@[simp] theorem State.returnPrim_mem (r : PrimResult) : (s.returnPrim r).mem = s.mem := rfl
@[simp] theorem State.returnPrim_txn (r : PrimResult) : (s.returnPrim r).txn = s.txn := rfl
@[simp] theorem State.returnPrim_primResult (r : PrimResult) : (s.returnPrim r).primResult = some r := rfl

@[simp] theorem State.setCs_config (b : Bool) : (s.setCs b).config = s.config := rfl
@[simp] theorem State.setCs_initialized (b : Bool) : (s.setCs b).initialized = s.initialized := rfl
@[simp] theorem State.setCs_halted (b : Bool) : (s.setCs b).halted = s.halted := rfl
@[simp] theorem State.setCs_position (b : Bool) : (s.setCs b).position = s.position := rfl
@[simp] theorem State.setCs_inbox (b : Bool) : (s.setCs b).inbox = s.inbox := rfl
@[simp] theorem State.setCs_responses (b : Bool) : (s.setCs b).responses = s.responses := rfl
@[simp] theorem State.setCs_trace (b : Bool) : (s.setCs b).trace = s.trace := rfl
@[simp] theorem State.setCs_link (b : Bool) : (s.setCs b).link = s.link := rfl
@[simp] theorem State.setCs_script (b : Bool) : (s.setCs b).script = s.script := rfl
@[simp] theorem State.setCs_draws (b : Bool) : (s.setCs b).draws = s.draws := rfl
@[simp] theorem State.setCs_cs (b : Bool) : (s.setCs b).cs = b := rfl
@[simp] theorem State.setCs_up (b : Bool) : (s.setCs b).up = s.up := rfl
@[simp] theorem State.setCs_wel (b : Bool) : (s.setCs b).wel = s.wel := rfl
@[simp] theorem State.setCs_mem (b : Bool) : (s.setCs b).mem = s.mem := rfl
@[simp] theorem State.setCs_txn (b : Bool) : (s.setCs b).txn = s.txn := rfl
@[simp] theorem State.setCs_primResult (b : Bool) : (s.setCs b).primResult = s.primResult := rfl

@[simp] theorem State.setUp_config (b : Bool) : (s.setUp b).config = s.config := rfl
@[simp] theorem State.setUp_initialized (b : Bool) : (s.setUp b).initialized = s.initialized := rfl
@[simp] theorem State.setUp_halted (b : Bool) : (s.setUp b).halted = s.halted := rfl
@[simp] theorem State.setUp_position (b : Bool) : (s.setUp b).position = s.position := rfl
@[simp] theorem State.setUp_inbox (b : Bool) : (s.setUp b).inbox = s.inbox := rfl
@[simp] theorem State.setUp_responses (b : Bool) : (s.setUp b).responses = s.responses := rfl
@[simp] theorem State.setUp_trace (b : Bool) : (s.setUp b).trace = s.trace := rfl
@[simp] theorem State.setUp_link (b : Bool) : (s.setUp b).link = s.link := rfl
@[simp] theorem State.setUp_script (b : Bool) : (s.setUp b).script = s.script := rfl
@[simp] theorem State.setUp_draws (b : Bool) : (s.setUp b).draws = s.draws := rfl
@[simp] theorem State.setUp_cs (b : Bool) : (s.setUp b).cs = s.cs := rfl
@[simp] theorem State.setUp_up (b : Bool) : (s.setUp b).up = b := rfl
@[simp] theorem State.setUp_wel (b : Bool) : (s.setUp b).wel = s.wel := rfl
@[simp] theorem State.setUp_mem (b : Bool) : (s.setUp b).mem = s.mem := rfl
@[simp] theorem State.setUp_txn (b : Bool) : (s.setUp b).txn = s.txn := rfl
@[simp] theorem State.setUp_primResult (b : Bool) : (s.setUp b).primResult = s.primResult := rfl

@[simp] theorem State.nextReply_config : s.nextReply.config = s.config := rfl
@[simp] theorem State.nextReply_initialized : s.nextReply.initialized = s.initialized := rfl
@[simp] theorem State.nextReply_halted : s.nextReply.halted = s.halted := rfl
@[simp] theorem State.nextReply_position : s.nextReply.position = s.position := rfl
@[simp] theorem State.nextReply_inbox : s.nextReply.inbox = s.inbox := rfl
@[simp] theorem State.nextReply_responses : s.nextReply.responses = s.responses := rfl
@[simp] theorem State.nextReply_trace : s.nextReply.trace = s.trace := rfl
@[simp] theorem State.nextReply_link : s.nextReply.link = s.link := rfl
@[simp] theorem State.nextReply_script : s.nextReply.script = s.script.tail := rfl
@[simp] theorem State.nextReply_draws : s.nextReply.draws = s.draws + 1 := rfl
@[simp] theorem State.nextReply_cs : s.nextReply.cs = s.cs := rfl
@[simp] theorem State.nextReply_up : s.nextReply.up = s.up := rfl
@[simp] theorem State.nextReply_wel : s.nextReply.wel = s.wel := rfl
@[simp] theorem State.nextReply_mem : s.nextReply.mem = s.mem := rfl
@[simp] theorem State.nextReply_txn : s.nextReply.txn = s.txn := rfl
@[simp] theorem State.nextReply_primResult : s.nextReply.primResult = s.primResult := rfl

end Sys2Proof.Machine
end

