-- ==== Sys2Proof/Laws/Ops.lean ====
section
/-! SUPPORT. What a transport call can do, said once: what it leaves alone, where chip-select goes, what it yields; how
the two transports answer; and how an operation built from calls is taken apart (R50 to R54). -/

namespace Sys2Proof.Machine

/-- How many bytes a call receives. -/
def Call.receives : Call → Nat
  | .rx n _ => n
  | _ => 0

/-- `t` is `s` after one answered call: only the trace and what lies outside the block differ. -/
def callFrame (c : Call) (a : Answer) (bs : List Byte) (s t : State) : Prop :=
  t = { s with script := t.script, draws := t.draws, cs := t.cs, up := t.up, wel := t.wel, mem := t.mem, txn := t.txn,
               trace := s.trace ++ [⟨c, some a, bs⟩] }

theorem csAt_of_policy (c : Call) (cs : Bool) :
    csAtExit c (csAtEntry c cs) =
      match c.policy with
      | none => cs
      | some .assert => true
      | some .release => false
      | some .both => false := by
  rcases c with _ | _ | ⟨_, p⟩ | ⟨_, p⟩
  · rfl
  · rfl
  all_goals cases p <;> rfl

/-- One device call that moves bytes: entry, input or output, exit. -/
theorem deviceExit_cs (p : Policy) (s : State) : (deviceExit p s).cs = (!p.releases && s.cs) := by
  cases p <;> simp [deviceExit, Policy.releases]

theorem deviceEntry_cs (p : Policy) (s : State) : (deviceEntry p s).cs = (p.asserts || s.cs) := by
  cases p <;> simp [deviceEntry, Policy.asserts]

theorem deviceEntry_frame (p : Policy) (s : State) : deviceFrame s (deviceEntry p s) := by
  cases p <;> rfl

theorem deviceExit_frame (p : Policy) (s : State) : deviceFrame s (deviceExit p s) := by
  cases p <;> rfl

theorem deviceEntry_mem (p : Policy) (s : State) : (deviceEntry p s).mem = s.mem := by
  cases p <;> rfl

theorem deviceExit_mem (p : Policy) (s : State) : (deviceExit p s).mem = s.mem := by
  cases p <;> rfl

theorem arraySound_of_frame {s t : State} (h : deviceFrame s t) (hm : t.mem = s.mem) (hs : s.arraySound) :
    t.arraySound := by
  unfold deviceFrame at h
  unfold State.arraySound State.arraySize at *
  rw [h]
  exact ⟨by rw [hm]; exact hs.1, by rw [hm]; exact hs.2⟩

theorem link_cases (s : State) : s.link = .oracle ∨ s.link = .reference := by
  cases s.link <;> simp

/-- What an answered call can do, before it is recorded. -/
theorem linkCall_answered {c : Call} {s t : State} {a : Answer} {bs : List Byte}
    (h : linkCall c s = .answered a bs t) :
    t = { s with script := t.script, draws := t.draws, cs := t.cs, up := t.up, wel := t.wel, mem := t.mem, txn := t.txn } ∧
    t.cs = csAtExit c (csAtEntry c s.cs) ∧ bs.length = c.receives ∧ (s.arraySound → t.arraySound) ∧
    (s.link = .oracle → t.txn = s.txn) ∧
    (s.link = .reference → ∀ p, c.policy = some p → p.releases = true → t.txn = []) ∧
    (c.policy = none → t.txn = s.txn) := by
  unfold linkCall at h
  obtain hl | hl := link_cases s
  · simp only [hl] at h
    unfold oracleCall at h
    dsimp only at h
    split at h
    · cases h
    · simp only [CallResult.answered.injEq] at h
      obtain ⟨rfl, rfl, rfl⟩ := h
      refine ⟨rfl, rfl, ?_, fun h => h, fun _ => rfl, fun h => absurd (hl.symm.trans h) (by decide), fun _ => rfl⟩
      rcases c with _ | _ | _ | ⟨n, p⟩ <;> simp [oracleBytes, Call.receives, replyBytes]
  · simp only [hl] at h
    rcases c with _ | _ | ⟨bytes, p⟩ | ⟨n, p⟩
    · simp only [referenceCall, CallResult.answered.injEq] at h
      obtain ⟨rfl, rfl, rfl⟩ := h
      exact ⟨rfl, rfl, rfl, fun h => h, fun _ => rfl, fun _ p hp => (by cases hp), fun _ => rfl⟩
    · simp only [referenceCall, CallResult.answered.injEq] at h
      obtain ⟨rfl, rfl, rfl⟩ := h
      exact ⟨rfl, rfl, rfl, fun h => h, fun _ => rfl, fun _ p hp => (by cases hp), fun _ => rfl⟩
    · simp only [referenceCall] at h
      split at h
      · cases h
      · simp only [CallResult.answered.injEq] at h
        obtain ⟨rfl, rfl, rfl⟩ := h
        obtain ⟨h₁, h₂, h₃, h₄, h₅⟩ := deviceInputs_spec bytes (deviceEntry p s)
        have hf := deviceFrame_trans (deviceFrame_trans (deviceEntry_frame p s) h₁) (deviceExit_frame p _)
        refine ⟨by rw [hf], ?_, rfl, ?_, fun h => absurd (hl.symm.trans h) (by decide), ?_, fun h => (by cases h)⟩
        · rw [deviceExit_cs, h₂, deviceEntry_cs]; rfl
        · intro hs
          refine arraySound_of_frame (deviceExit_frame p _) (deviceExit_mem p _) (h₅ ?_)
          exact arraySound_of_frame (deviceEntry_frame p s) (deviceEntry_mem p s) hs
        · intro _ q hq hr
          obtain rfl : p = q := by simpa [Call.policy] using hq
          simp [deviceExit, hr]
    · simp only [referenceCall] at h
      split at h
      · cases h
      · split at h
        · cases h
        · rename_i bytes u hu
          simp only [CallResult.answered.injEq] at h
          obtain ⟨rfl, rfl, rfl⟩ := h
          obtain ⟨h₁, h₂⟩ := deviceOutputs_spec _ _ _ _ hu
          have hu' : deviceFrame (deviceEntry p s) u := by rw [h₁]; rfl
          have hf := deviceFrame_trans (deviceFrame_trans (deviceEntry_frame p s) hu') (deviceExit_frame p _)
          refine ⟨by rw [hf], ?_, h₂, ?_, fun h => absurd (hl.symm.trans h) (by decide), ?_, fun h => (by cases h)⟩
          · rw [deviceExit_cs, h₁, deviceEntry_cs]; rfl
          · intro hs
            refine arraySound_of_frame hf ?_ hs
            rw [deviceExit_mem, h₁, deviceEntry_mem]
          · intro _ q hq hr
            obtain rfl : p = q := by simpa [Call.policy] using hq
            simp [deviceExit, hr]

/-- A call that never returns changes only the script's place, chip-select at the entry, and `up` for TINIT and TDEINIT. -/
theorem linkCall_hung {c : Call} {s t : State} (h : linkCall c s = .hung t) :
    t = { s with script := t.script, draws := t.draws, cs := t.cs, up := t.up } := by
  unfold linkCall at h
  split at h
  · unfold oracleCall at h
    dsimp only at h
    split at h
    · simp only [CallResult.hung.injEq] at h
      rw [← h]; rfl
    · cases h
  · unfold referenceCall at h
    repeat' split at h
    all_goals cases h

/-- What an answered transport call can do: everything it leaves alone, the trace entry, the chip-select level of its
policy (R51), as many bytes as asked for (R50), and a device array that stays sound. -/
theorem transportCall_answered {c : Call} {s t : State} {a : Answer} {bs : List Byte}
    (h : transportCall c s = .answered a bs t) :
    callFrame c a bs s t ∧ t.cs = csAtExit c (csAtEntry c s.cs) ∧ bs.length = c.receives ∧
    (s.arraySound → t.arraySound) ∧ (s.link = .oracle → t.txn = s.txn) ∧
    (s.link = .reference → ∀ p, c.policy = some p → p.releases = true → t.txn = []) ∧
    (c.policy = none → t.txn = s.txn) := by
  unfold transportCall at h
  split at h
  · rename_i hc
    simp only [CallResult.answered.injEq] at h
    obtain ⟨rfl, rfl, rfl⟩ := h
    obtain ⟨h₁, h₂, h₃, h₄, h₅, h₆, h₇⟩ := linkCall_answered hc
    refine ⟨?_, h₂, h₃, h₄, h₅, h₆, h₇⟩
    unfold callFrame
    rw [h₁]; rfl
  · cases h
  · cases h

/-- A transport call that never returns: it is recorded without an answer and the block waits for it (R226). -/
theorem transportCall_hung {c : Call} {s t : State} (h : transportCall c s = .hung t) :
    t = { s with script := t.script, draws := t.draws, cs := t.cs, up := t.up, position := .waiting c,
                 trace := s.trace ++ [⟨c, none, []⟩] } := by
  unfold transportCall at h
  split at h
  · cases h
  · rename_i hc
    simp only [CallResult.hung.injEq] at h
    rw [← h, linkCall_hung hc]; rfl
  · cases h

/-- Every next state of `r` has the property `P`. -/
def nextHas (P : State → Prop) (r : Result) : Prop := ∀ u, r = .next u → P u

theorem nextHas_next {P : State → Prop} {s : State} (h : P s) : nextHas P (.next s) := by
  intro u hu
  cases hu
  exact h

theorem nextHas_refused {P : State → Prop} {r : Refusal} : nextHas P (.refused r) := by
  intro u hu
  cases hu

theorem nextHas_respond {P : State → Prop} {r : Response} {s : State} (h : P (s.answerHost r)) :
    nextHas P (respond r s) := nextHas_next h

/-- An operation that begins with a call has a property if it has it after every answer, and where it hangs. -/
theorem nextHas_callThen {P : State → Prop} {c : Call} {s : State} {k : Answer → List Byte → State → Result}
    (ha : ∀ a bs t, transportCall c s = .answered a bs t → nextHas P (k a bs t))
    (hh : ∀ t, transportCall c s = .hung t → P t) : nextHas P (callThen c s k) := by
  unfold callThen
  split
  · exact ha _ _ _ ‹_›
  · exact nextHas_next (hh _ ‹_›)
  · exact nextHas_refused

theorem nextHas_raisePrecond {P : State → Prop} {code : BitVec 8} {s : State}
    (h₁ : s.config.assertFatal = true → P s.halt)
    (h₂ : s.config.assertFatal = false → P (s.answerHost (statusResponse code))) :
    nextHas P (raisePrecond code s) := by
  unfold raisePrecond
  split
  · exact nextHas_next (h₁ ‹_›)
  · exact nextHas_respond (h₂ (Bool.eq_false_iff.mpr ‹_›))

/-- `raise Precond` is what R184 says. -/
theorem raisePrecond_eq (code : BitVec 8) (s : State) : raisePrecond code s = .next (s.afterPrecond code) := by
  unfold raisePrecond State.afterPrecond
  split <;> rfl

/-- The erase payload is the beginning of the constant buffer of ERASE_BUF_LEN bytes (R10, R153). -/
theorem erasePayload_eq_take (size : Word) (h : size.toNat ≤ 256) :
    erasePayload size = eraseBuffer.take size.toNat := by
  unfold erasePayload eraseBuffer
  rw [List.take_replicate, Nat.min_eq_left h]

/-! ### How the two transports answer -/

/-- A call to the oracle whose coming reply has an answer. -/
theorem oracle_answers {c : Call} {s : State} {a : Answer} (hl : s.link = .oracle)
    (ha : (s.replyAt 0).answer = some a) :
    transportCall c s = .answered a (oracleBytes s.draws c (s.replyAt 0))
      { s with script := s.script.tail, draws := s.draws + 1, cs := csAtExit c (csAtEntry c s.cs),
               up := oracleUp s.draws c (some a) s.up,
               trace := s.trace ++ [⟨c, some a, oracleBytes s.draws c (s.replyAt 0)⟩] } := by
  have h : linkCall c s = oracleCall c s := by simp [linkCall, hl]
  unfold transportCall
  rw [h]
  unfold oracleCall
  simp only [ha]
  rfl

/-- An answered call to the oracle leaves the reference device's fields alone: no device is there (assumption 18). -/
theorem oracle_keeps_device {c : Call} {s t : State} {a : Answer} {bs : List Byte} (hl : s.link = .oracle)
    (h : transportCall c s = .answered a bs t) :
    t.mem = s.mem ∧ t.wel = s.wel ∧ t.txn = s.txn ∧ t.link = .oracle := by
  have hk : linkCall c s = oracleCall c s := by simp [linkCall, hl]
  unfold transportCall at h
  rw [hk] at h
  unfold oracleCall at h
  dsimp only at h
  cases ha : (s.replyAt 0).answer with
  | none => rw [ha] at h; cases h
  | some b =>
    rw [ha] at h
    simp only [CallResult.answered.injEq] at h
    obtain ⟨-, -, rfl⟩ := h
    exact ⟨rfl, rfl, rfl, hl⟩

/-- After one call the oracle's coming replies are those that followed. -/
theorem replyAt_after {s t : State} (h₁ : t.script = s.script.tail) (h₂ : t.draws = s.draws + 1) (i : Nat) :
    t.replyAt i = s.replyAt (i + 1) := by
  unfold State.replyAt
  rw [h₁, h₂, List.getElem?_tail, Nat.add_right_comm, Nat.add_assoc]

theorem serves_oracle {s : State} (hl : s.link = .oracle) (k : Nat) :
    s.serves k = true ↔ ∀ i < k, ∃ a, (s.replyAt i).answer = some a := by
  simp [State.serves, hl, Option.isSome_iff_exists]

theorem serves_reference {s : State} (hl : s.link = .reference) (k : Nat) :
    s.serves k = true ↔ s.up = true ∧ s.cs = false := by
  simp [State.serves, hl]

/-- A TX to the reference device that it gives a meaning to (R61). -/
theorem reference_tx {bytes : List Byte} {p : Policy} {s : State} (hl : s.link = .reference)
    (hr : deviceRefuses p s = none) :
    transportCall (.tx bytes p) s = .answered .ok []
      ((deviceExit p (bytes.foldl deviceInput (deviceEntry p s))).record ⟨.tx bytes p, some .ok, []⟩) := by
  simp [transportCall, linkCall, hl, referenceCall, hr]

/-- An RX to the reference device that it gives a meaning to (R61, R63). -/
theorem reference_rx {n : Nat} {p : Policy} {s t : State} {bs : List Byte} (hl : s.link = .reference)
    (hr : deviceRefuses p s = none) (ho : deviceOutputs n (deviceEntry p s) = some (bs, t)) :
    transportCall (.rx n p) s = .answered .ok bs ((deviceExit p t).record ⟨.rx n p, some .ok, bs⟩) := by
  simp [transportCall, linkCall, hl, referenceCall, hr, ho]

end Sys2Proof.Machine
end

