-- ==== Sys2Proof/Laws/Transactions.lean ====
section
/-! SUPPORT. What the primitives and the transactions of the block come to when the transport serves them, on either
transport: one lemma each, for any continuation, which the proofs cite instead of unfolding them. -/

namespace Sys2Proof.Machine

/-- `t` is `s` after calls that move bytes, recorded as `items`: chip-select is released, and only the trace, the
oracle's place and the device differ. -/
def transactionFrame (items : List TraceItem) (s t : State) : Prop :=
  t = { s with script := t.script, draws := t.draws, cs := false, wel := t.wel, mem := t.mem, txn := t.txn,
               trace := s.trace ++ items }

/-- What the oracle leaves alone in `k` calls: the device is not there. -/
def oracleFrame (k : Nat) (s t : State) : Prop :=
  t.wel = s.wel ∧ t.mem = s.mem ∧ t.txn = s.txn ∧ ∀ i, t.replyAt i = s.replyAt (k + i)

theorem serves_mono {s : State} {j k : Nat} (hjk : j ≤ k) (h : s.serves k = true) : s.serves j = true := by
  obtain hl | hl := link_cases s
  · rw [serves_oracle hl] at *
    exact fun i hi => h i (by omega)
  · rwa [serves_reference hl] at *

theorem deviceRefuses_none {p : Policy} {s : State} (hu : s.up = true)
    (h : (p = .assert → s.cs = false) ∧ (p = .release → s.cs = true)) : deviceRefuses p s = none := by
  cases p <;> simp_all [deviceRefuses]

/-- The state of the device after the bytes of one TX without a release. -/
theorem deviceInputs_open {s : State} {p : Policy} (hp : p.asserts = true) (bytes : List Byte) :
    let t := bytes.foldl deviceInput (deviceEntry p s)
    deviceFrame s t ∧ t.cs = true ∧ t.wel = s.wel ∧ t.txn = bytes.map .inp ∧
      (bytes.length ≤ s.mode.frameLen → t.mem = s.mem) := by
  obtain ⟨h₁, h₂, h₃, h₄, -⟩ := deviceInputs_spec bytes (deviceEntry p s)
  have he : deviceEntry p s = { s with cs := true, txn := [] } := by simp [deviceEntry, hp]
  refine ⟨deviceFrame_trans (deviceEntry_frame p s) h₁, ?_, ?_, ?_, fun hb => ?_⟩
  · rw [h₂, he]
  · rw [h₃, he]
  · rw [h₄, he]; rfl
  · have h := deviceInputs_short bytes (deviceEntry p s)
      (by rw [he]; change (txnInputs []).length + _ ≤ s.mode.frameLen; simpa using hb)
    rw [h, he]

/-- One call with CS_BOTH (R51, R111, R113). -/
theorem tx_both {s : State} {k : Nat} (bytes : List Byte) (hb : bytes.length ≤ s.mode.frameLen)
    (h : s.serves (k + 1) = true) :
    ∃ a t, transportCall (.tx bytes .both) s = .answered a [] t ∧
      transactionFrame [⟨.tx bytes .both, some a, []⟩] s t ∧ t.mem = s.mem ∧ t.serves k = true ∧
      (s.link = .oracle → oracleFrame 1 s t ∧ (s.replyAt 0).answer = some a) ∧
      (s.link = .reference → a = .ok ∧ t.txn = [] ∧ t.wel = latchAfter s.mode (bytes.map .inp) s.wel) := by
  obtain hl | hl := link_cases s
  · have hs := (serves_oracle hl _).mp h
    obtain ⟨a, ha⟩ := hs 0 (by omega)
    refine ⟨a, _, oracle_answers hl ha, ?_, rfl, ?_, fun _ => ⟨⟨rfl, rfl, rfl, fun i => ?_⟩, ha⟩,
      fun h => absurd (hl.symm.trans h) (by decide)⟩
    · rfl
    · refine (serves_oracle (by exact hl) _).mpr fun i hi => ?_
      rw [replyAt_after (s := s) rfl rfl]
      exact hs (i + 1) (by omega)
    · rw [replyAt_after (s := s) rfl rfl, Nat.add_comm]
  · obtain ⟨hu, hc⟩ := (serves_reference hl _).mp h
    obtain ⟨h₁, h₂, h₃, h₄, h₅⟩ := deviceInputs_open (s := s) (p := .both) rfl bytes
    have hm : (bytes.foldl deviceInput (deviceEntry .both s)).mode = s.mode := by rw [h₁]; rfl
    refine ⟨.ok, _, reference_tx hl (deviceRefuses_none hu ⟨nofun, nofun⟩), ?_, ?_, ?_,
      fun h => absurd (hl.symm.trans h) (by decide), fun _ => ⟨rfl, rfl, ?_⟩⟩
    · unfold transactionFrame
      rw [h₁]; rfl
    · exact h₅ hb
    · rw [serves_reference (by rw [h₁]; exact hl)]
      exact ⟨by rw [h₁]; exact hu, rfl⟩
    · simp only [State.record_wel, deviceExit, Policy.releases, if_true, hm, h₃, h₄]

/-- The first call of a transaction, with CS_ASSERT (R51). -/
theorem tx_assert {s : State} {k : Nat} (bytes : List Byte) (hb : bytes.length ≤ s.mode.frameLen)
    (h : s.serves (k + 1) = true) :
    ∃ a t, transportCall (.tx bytes .assert) s = .answered a [] t ∧
      t = { s with script := t.script, draws := t.draws, cs := true, txn := t.txn,
                   trace := s.trace ++ [⟨.tx bytes .assert, some a, []⟩] } ∧
      (s.link = .oracle → oracleFrame 1 s t ∧ (s.replyAt 0).answer = some a) ∧
      (s.link = .reference → a = .ok ∧ t.up = true ∧ t.txn = bytes.map .inp) := by
  obtain hl | hl := link_cases s
  · have hs := (serves_oracle hl _).mp h
    obtain ⟨a, ha⟩ := hs 0 (by omega)
    refine ⟨a, _, oracle_answers hl ha, ?_, fun _ => ⟨⟨rfl, rfl, rfl, fun i => ?_⟩, ha⟩,
      fun h => absurd (hl.symm.trans h) (by decide)⟩
    · rfl
    · rw [replyAt_after (s := s) rfl rfl, Nat.add_comm]
  · obtain ⟨hu, hc⟩ := (serves_reference hl _).mp h
    obtain ⟨h₁, h₂, h₃, h₄, h₅⟩ := deviceInputs_open (s := s) (p := .assert) rfl bytes
    have h₅ := h₅ hb
    refine ⟨.ok, _, reference_tx hl (deviceRefuses_none hu ⟨fun _ => hc, nofun⟩), ?_,
      fun h => absurd (hl.symm.trans h) (by decide), fun _ => ⟨rfl, ?_, ?_⟩⟩
    · unfold deviceFrame at h₁
      generalize bytes.foldl deviceInput (deviceEntry .assert s) = u at *
      simp only [deviceExit, Policy.releases, Bool.false_eq_true, if_false]
      rw [h₁, h₂, h₃, h₅]; rfl
    · simp only [deviceExit, Policy.releases, Bool.false_eq_true, if_false]
      rw [h₁]; exact hu
    · simpa [deviceExit, Policy.releases] using h₄

/-- The second call of a transaction, an RX with CS_RELEASE, on the oracle. -/
theorem rx_release_oracle {s : State} {a : Answer} (n : Nat) (hl : s.link = .oracle)
    (ha : (s.replyAt 0).answer = some a) :
    ∃ t, transportCall (.rx n .release) s = .answered a (replyBytes s.draws (s.replyAt 0) n) t ∧
      transactionFrame [⟨.rx n .release, some a, replyBytes s.draws (s.replyAt 0) n⟩] s t ∧ oracleFrame 1 s t :=
  ⟨_, oracle_answers hl ha, rfl, rfl, rfl, rfl, fun i => by rw [replyAt_after (s := s) rfl rfl, Nat.add_comm]⟩

/-- The second call of a transaction, a TX with CS_RELEASE, on the oracle. -/
theorem tx_release_oracle {s : State} {a : Answer} (bytes : List Byte) (hl : s.link = .oracle)
    (ha : (s.replyAt 0).answer = some a) :
    ∃ t, transportCall (.tx bytes .release) s = .answered a [] t ∧
      transactionFrame [⟨.tx bytes .release, some a, []⟩] s t ∧ oracleFrame 1 s t :=
  ⟨_, oracle_answers hl ha, rfl, rfl, rfl, rfl, fun i => by rw [replyAt_after (s := s) rfl rfl, Nat.add_comm]⟩

/-- The second call of a transaction, an RX with CS_RELEASE, on the reference device. -/
theorem rx_release_reference {s t : State} {bs : List Byte} (n : Nat) (hl : s.link = .reference) (hu : s.up = true)
    (hc : s.cs = true) (ho : deviceOutputs n s = some (bs, t)) :
    ∃ u, transportCall (.rx n .release) s = .answered .ok bs u ∧
      transactionFrame [⟨.rx n .release, some .ok, bs⟩] s u ∧ u.mem = s.mem ∧ u.txn = [] ∧
      u.wel = latchAfter s.mode t.txn s.wel := by
  obtain ⟨h₁, -⟩ := deviceOutputs_spec _ _ _ _ ho
  refine ⟨_, reference_rx hl (deviceRefuses_none hu ⟨nofun, fun _ => hc⟩) (by exact ho), ?_, ?_, rfl, ?_⟩
  · unfold transactionFrame; rw [h₁]; rfl
  · rw [h₁]; rfl
  · rw [h₁]; rfl

/-- The second call of a transaction, a TX with CS_RELEASE. -/
theorem tx_release_reference {s : State} (bytes : List Byte) (hl : s.link = .reference) (hu : s.up = true)
    (hc : s.cs = true) :
    ∃ u, transportCall (.tx bytes .release) s = .answered .ok [] u ∧
      transactionFrame [⟨.tx bytes .release, some .ok, []⟩] s u ∧ u.mem = (bytes.foldl deviceInput s).mem ∧
      u.txn = [] ∧ u.wel = latchAfter s.mode (s.txn ++ bytes.map .inp) s.wel := by
  obtain ⟨h₁, h₂, h₃, h₄, -⟩ := deviceInputs_spec bytes s
  have he : deviceEntry .release s = s := rfl
  have hm : (bytes.foldl deviceInput s).mode = s.mode := by rw [h₁]; rfl
  refine ⟨_, reference_tx hl (deviceRefuses_none hu ⟨nofun, fun _ => hc⟩), ?_, rfl, rfl, ?_⟩
  · unfold transactionFrame; rw [he, h₁]; rfl
  · simp only [he, State.record_wel, deviceExit, Policy.releases, if_true, hm, h₃, h₄]

theorem transactionFrame_open {f : List Byte} {a : Answer} {items : List TraceItem} {s t u : State}
    (ht : t = { s with script := t.script, draws := t.draws, cs := true, txn := t.txn,
                       trace := s.trace ++ [⟨.tx f .assert, some a, []⟩] })
    (hu : transactionFrame items t u) : transactionFrame (⟨.tx f .assert, some a, []⟩ :: items) s u := by
  unfold transactionFrame at *
  rw [ht] at hu
  rw [hu]
  simp

/-- `WriteEnable()` (R111): for every continuation. -/
theorem writeEnable_spec {s : State} {k : Nat} (h : s.serves (k + 1) = true) :
    ∃ a t, (∀ K, writeEnable s K = K (tr a) [] t) ∧
      transactionFrame [⟨.tx [codeWREN] .both, some a, []⟩] s t ∧ t.mem = s.mem ∧ t.serves k = true ∧
      (s.link = .oracle → oracleFrame 1 s t ∧ (s.replyAt 0).answer = some a) ∧
      (s.link = .reference → a = .ok ∧ t.txn = [] ∧ t.wel = true) := by
  obtain ⟨a, t, h₁, h₂, h₃, h₄, h₅, h₆⟩ :=
    tx_both [codeWREN] (by cases s.mode <;> decide) h
  refine ⟨a, t, fun K => by simp [writeEnable, callThen, h₁], h₂, h₃, h₄, h₅, fun hl => ?_⟩
  obtain ⟨ha, ht, hw⟩ := h₆ hl
  exact ⟨ha, ht, hw.trans (by cases s.mode <;> rfl)⟩

/-- `WriteDisable()` (R113): for every continuation. -/
theorem writeDisable_spec {s : State} {k : Nat} (h : s.serves (k + 1) = true) :
    ∃ a t, (∀ K, writeDisable s K = K (tr a) [] t) ∧
      transactionFrame [⟨.tx [codeWRDI] .both, some a, []⟩] s t ∧ t.mem = s.mem ∧ t.serves k = true ∧
      (s.link = .oracle → oracleFrame 1 s t ∧ (s.replyAt 0).answer = some a) ∧
      (s.link = .reference → a = .ok ∧ t.txn = [] ∧ t.wel = false) := by
  obtain ⟨a, t, h₁, h₂, h₃, h₄, h₅, h₆⟩ :=
    tx_both [codeWRDI] (by cases s.mode <;> decide) h
  refine ⟨a, t, fun K => by simp [writeDisable, callThen, h₁], h₂, h₃, h₄, h₅, fun hl => ?_⟩
  obtain ⟨ha, ht, hw⟩ := h₆ hl
  exact ⟨ha, ht, hw.trans (by cases s.mode <;> rfl)⟩

/-- `StatusRead()` (R121): for every continuation. -/
theorem statusRead_spec {s : State} {k : Nat} (h : s.serves (k + 2) = true) :
    ∃ a₁ a₂ b t, (∀ K, statusRead s K = K (tr a₁ ||| tr a₂) [b] t) ∧
      transactionFrame [⟨.tx [codeRDSR] .assert, some a₁, []⟩, ⟨.rx 1 .release, some a₂, [b]⟩] s t ∧
      t.mem = s.mem ∧ t.wel = s.wel ∧
      (s.link = .oracle → oracleFrame 2 s t ∧ (s.replyAt 0).answer = some a₁ ∧ (s.replyAt 1).answer = some a₂) ∧
      (s.link = .reference → a₁ = .ok ∧ a₂ = .ok ∧ t.txn = [] ∧ b = deviceStatus s.wel) := by
  obtain ⟨a₁, t, h₁, h₂, h₃, h₄⟩ := tx_assert (k := k + 1) [codeRDSR] (by cases s.mode <;> decide) h
  obtain hl | hl := link_cases s
  · obtain ⟨⟨hw, hm, hx, hr⟩, ha⟩ := h₃ hl
    obtain ⟨a₂, ha₂⟩ := (serves_oracle hl _).mp h 1 (by omega)
    obtain ⟨u, hu, hf, hw', hm', hx', hr'⟩ := rx_release_oracle (s := t) 1 (by rw [h₂]; exact hl)
      (by rw [hr]; exact ha₂)
    refine ⟨a₁, a₂, _, u, fun K => ?_, transactionFrame_open h₂ hf, hm'.trans hm, hw'.trans hw,
      fun _ => ⟨⟨hw'.trans hw, hm'.trans hm, hx'.trans hx, fun i => ?_⟩, ha, ha₂⟩,
      fun h => absurd (hl.symm.trans h) (by decide)⟩
    · simp [statusRead, callThen, h₁, hu]; rfl
    · rw [hr', hr]; congr 1; omega
  · obtain ⟨ha, hu, hx⟩ := h₄ hl
    have hk : deviceOutputs 1 t = some ([deviceStatus s.wel], { t with txn := t.txn ++ [.out (deviceStatus s.wel)] }) := by
      have hi : txnInputs t.txn = [codeRDSR] := by rw [hx]; rfl
      have hk : deviceOutputByte t = some (deviceStatus s.wel) := by
        unfold deviceOutputByte
        rw [hi, h₂]; rfl
      simp only [deviceOutputs, hk]
    obtain ⟨u, hu, hf, hm, ht, hw⟩ := rx_release_reference 1 (by rw [h₂]; exact hl) hu (by rw [h₂]) hk
    refine ⟨a₁, .ok, _, u, fun K => ?_, transactionFrame_open h₂ hf, ?_, ?_,
      fun h => absurd (hl.symm.trans h) (by decide), fun _ => ⟨ha, rfl, ht, rfl⟩⟩
    · simp [statusRead, callThen, h₁, hu]
    · rw [hm, h₂]
    · rw [hw, h₂, hx]; rfl

/-- The READ transaction (R131): for every continuation. -/
theorem readTransaction_spec {s : State} {k : Nat} (addr : Word) (n : Nat) (h : s.serves (k + 2) = true) :
    ∃ a₁ a₂ d t, (∀ K, readTransaction addr n s K = K (tr a₁ ||| tr a₂) d t) ∧ d.length = n ∧
      transactionFrame [⟨.tx (frame s.mode .read addr) .assert, some a₁, []⟩, ⟨.rx n .release, some a₂, d⟩] s t ∧
      t.mem = s.mem ∧ t.wel = s.wel ∧
      (s.link = .oracle → oracleFrame 2 s t ∧ (s.replyAt 0).answer = some a₁ ∧ (s.replyAt 1).answer = some a₂ ∧
        d = replyBytes (s.draws + 1) (s.replyAt 1) n) ∧
      (s.link = .reference → a₁ = .ok ∧ a₂ = .ok ∧ t.txn = [] ∧
        d = (List.range n).map fun j => memRead s.mem ((addr.toNat + j) % s.arraySize)) := by
  obtain ⟨a₁, t, h₁, h₂, h₃, h₄⟩ := tx_assert (k := k + 1) (frame s.mode .read addr) (by simp) h
  obtain hl | hl := link_cases s
  · obtain ⟨⟨hw, hm, hx, hr⟩, ha⟩ := h₃ hl
    obtain ⟨a₂, ha₂⟩ := (serves_oracle hl _).mp h 1 (by omega)
    have hd : t.draws = s.draws + 1 := by
      have h₁' := h₁
      rw [oracle_answers hl ha] at h₁'
      simp only [CallResult.answered.injEq] at h₁'
      rw [← h₁'.2.2]
    obtain ⟨u, hu, hf, hw', hm', hx', hr'⟩ := rx_release_oracle (s := t) n (by rw [h₂]; exact hl)
      (by rw [hr]; exact ha₂)
    refine ⟨a₁, a₂, _, u, fun K => ?_, by simp [replyBytes], transactionFrame_open h₂ hf, hm'.trans hm, hw'.trans hw,
      fun _ => ⟨⟨hw'.trans hw, hm'.trans hm, hx'.trans hx, fun i => ?_⟩, ha, ha₂, ?_⟩,
      fun h => absurd (hl.symm.trans h) (by decide)⟩
    · simp [readTransaction, callThen, h₁, hu]
    · rw [hr', hr]; congr 1; omega
    · rw [hd, hr]
  · obtain ⟨ha, hu, hx⟩ := h₄ hl
    have hmode : t.mode = s.mode := by rw [h₂]; rfl
    have hi : txnInputs t.txn = frame t.mode .read addr := by rw [hx, txnInputs_map_inp, hmode]
    obtain ⟨v, hv, hvi⟩ := deviceOutputs_read addr n t hi
    have h0 : txnOutputs t.txn = 0 := by rw [hx]; simp
    rw [h0, ← List.range_eq_range'] at hv
    obtain ⟨u, hu, hf, hm, ht, hw⟩ := rx_release_reference n (by rw [h₂]; exact hl) hu (by rw [h₂]) hv
    have hz : t.arraySize = s.arraySize := by rw [h₂]; rfl
    have hmem : t.mem = s.mem := by rw [h₂]
    refine ⟨a₁, .ok, _, u, fun K => ?_, by simp, transactionFrame_open h₂ hf, hm.trans hmem, ?_,
      fun h => absurd (hl.symm.trans h) (by decide), fun _ => ⟨ha, rfl, ht, ?_⟩⟩
    · simp [readTransaction, callThen, h₁, hu]
    · have hk := txnKind_frame_read t.mode addr []
      rw [List.append_nil] at hk
      rw [hw]; unfold latchAfter
      rw [hvi, hk, h₂]
    · rw [hz, hmem]

/-- The WRITE transaction (R141): for every continuation. -/
theorem writeTransaction_spec {s : State} {k : Nat} (addr : Word) (data : List Byte) (h : s.serves (k + 2) = true) :
    ∃ a₁ a₂ t, (∀ K, writeTransaction addr data s K = K (tr a₁ ||| tr a₂) [] t) ∧
      transactionFrame [⟨.tx (frame s.mode .write addr) .assert, some a₁, []⟩, ⟨.tx data .release, some a₂, []⟩] s t ∧
      (s.link = .oracle → oracleFrame 2 s t ∧ (s.replyAt 0).answer = some a₁ ∧ (s.replyAt 1).answer = some a₂) ∧
      (s.link = .reference → a₁ = .ok ∧ a₂ = .ok ∧ t.txn = [] ∧ t.wel = false ∧
        (s.wel = false → t.mem = s.mem) ∧
        (s.wel = true → ∀ x,
          ((∀ j < data.length, (addr.toNat + j) % s.arraySize ≠ x) → memRead t.mem x = memRead s.mem x) ∧
          (Memory.wf s.mem = true → ∀ j (hj : j < data.length), (addr.toNat + j) % s.arraySize = x →
            (∀ k, j < k → k < data.length → (addr.toNat + k) % s.arraySize ≠ x) → memRead t.mem x = data[j]))) := by
  obtain ⟨a₁, t, h₁, h₂, h₃, h₄⟩ := tx_assert (k := k + 1) (frame s.mode .write addr) (by simp) h
  obtain hl | hl := link_cases s
  · obtain ⟨⟨hw, hm, hx, hr⟩, ha⟩ := h₃ hl
    obtain ⟨a₂, ha₂⟩ := (serves_oracle hl _).mp h 1 (by omega)
    obtain ⟨u, hu, hf, hw', hm', hx', hr'⟩ := tx_release_oracle (s := t) data (by rw [h₂]; exact hl)
      (by rw [hr]; exact ha₂)
    refine ⟨a₁, a₂, u, fun K => ?_, transactionFrame_open h₂ hf,
      fun _ => ⟨⟨hw'.trans hw, hm'.trans hm, hx'.trans hx, fun i => ?_⟩, ha, ha₂⟩,
      fun h => absurd (hl.symm.trans h) (by decide)⟩
    · simp only [writeTransaction, callThen, h₁, hu]
    · rw [hr', hr]; congr 1; omega
  · obtain ⟨ha, hu, hx⟩ := h₄ hl
    have hmode : t.mode = s.mode := by rw [h₂]; rfl
    have hz : t.arraySize = s.arraySize := by rw [h₂]; rfl
    have hmem : t.mem = s.mem := by rw [h₂]
    have hwel : t.wel = s.wel := by rw [h₂]
    obtain ⟨u, hu, hf, hm, ht, hw⟩ := tx_release_reference data (by rw [h₂]; exact hl) hu (by rw [h₂])
    refine ⟨a₁, .ok, u, fun K => ?_, transactionFrame_open h₂ hf,
      fun h => absurd (hl.symm.trans h) (by decide), fun _ => ⟨ha, rfl, ht, ?_, fun h => ?_, fun h x => ?_⟩⟩
    · simp [writeTransaction, callThen, h₁, hu]
    · have hk := txnKind_frame_write t.mode addr data
      rw [hw]; unfold latchAfter
      rw [txnInputs_append, hx, txnInputs_map_inp, txnInputs_map_inp, ← hmode, hk]
      simp
    · rw [hm, deviceInputs_latchClear data t (hwel.trans h), hmem]
    · have hp := deviceInputs_payload addr data t [] x (by rw [hx, hmode, List.append_nil]) (hwel.trans h)
      simpa only [hm, hz, hmem, List.length_nil, Nat.zero_add] using hp

end Sys2Proof.Machine
end

