-- ==== Sys2Proof/Laws/Step.lean ====
section
/-! SUPPORT. What a step can do, said once (R21, R210, R220, R234), and what the decoder's acceptance says of the input
of a step. -/

namespace Sys2Proof.Machine

/-- The idle block with an input other than reset: not accepted while stopped, else decoded. -/
theorem fetch_input {s : State} {x : Input} {rest : List Input} (hp : s.position = .idle) (hi : s.inbox = x :: rest)
    (hx : x ≠ .reset) : fetch s = accept x (s.withInbox rest) := by
  unfold fetch
  rw [hp]
  rcases x with r | t | _
  · simp only [fetchIdle, hi]
  · simp only [fetchIdle, hi]
  · exact absurd rfl hx

theorem fetch_reset {s : State} {rest : List Input} (hp : s.position = .idle) (hi : s.inbox = .reset :: rest) :
    fetch s = .done (s.withInbox rest).resetBlock := by
  unfold fetch
  rw [hp]
  simp only [fetchIdle, hi]

theorem fetch_empty {s : State} (hp : s.position = .idle) (hi : s.inbox = []) : fetch s = .done s := by
  unfold fetch
  rw [hp]
  simp only [fetchIdle, hi]

theorem fetch_waiting {s : State} {c : Call} (hp : s.position = .waiting c) : fetch s = fetchWaiting s.inbox := by
  unfold fetch
  rw [hp]

/-- A step that answers a next state: the block was idle, and waited, was reset, dropped an input while stopped, or ran
the instruction its next input decodes to. -/
theorem step_cases {s t : State} (h : step s = .next t) :
    s.position = .idle ∧
    ((s.inbox = [] ∧ t = s) ∨
     (∃ rest, s.inbox = .reset :: rest ∧ t = (s.withInbox rest).resetBlock) ∨
     (∃ x rest, s.inbox = x :: rest ∧ s.halted = true ∧ t = s.withInbox rest) ∨
     (∃ x rest i, s.inbox = x :: rest ∧ s.halted = false ∧ decode s.mode x = .ok i ∧
        exec i (s.withInbox rest) = .next t)) := by
  cases hp : s.position with
  | waiting c =>
    unfold step at h
    rw [fetch_waiting hp] at h
    rcases hi : s.inbox with _ | ⟨_ | _ | _, _⟩ <;> rw [hi] at h <;> cases h
  | idle =>
    refine ⟨rfl, ?_⟩
    rcases hi : s.inbox with _ | ⟨x, rest⟩
    · unfold step at h
      rw [fetch_empty hp hi] at h
      exact .inl ⟨rfl, (Host.Outcome.next.inj h).symm⟩
    · by_cases hx : x = .reset
      · subst hx
        unfold step at h
        rw [fetch_reset hp hi] at h
        exact .inr (.inl ⟨rest, rfl, (Host.Outcome.next.inj h).symm⟩)
      · unfold step at h
        rw [fetch_input hp hi hx] at h
        unfold accept at h
        cases hh : s.halted with
        | true =>
          simp only [State.withInbox_halted, hh, if_true, Host.Outcome.next.injEq] at h
          exact .inr (.inr (.inl ⟨x, rest, rfl, rfl, h.symm⟩))
        | false =>
          simp only [State.withInbox_halted, hh, Bool.false_eq_true, if_false] at h
          cases hd : decode (s.withInbox rest).mode x with
          | ok i =>
            rw [hd] at h
            exact .inr (.inr (.inr ⟨x, rest, i, rfl, rfl, hd, h⟩))
          | error e =>
            rw [hd] at h
            cases h

/-- An invariant of the machine from its cases: it does not look at the inbox, reset keeps it, and every instruction
that an idle block runs keeps it. -/
theorem step_keeps {P : State → Prop} (hInbox : ∀ s l, P s → P (s.withInbox l))
    (hReset : ∀ s, P s → s.position = .idle → P s.resetBlock)
    (hExec : ∀ s i x, P s → s.position = .idle → decode s.mode x = .ok i → nextHas P (exec i s))
    {s t : State} (hs : P s) (h : step s = .next t) : P t := by
  obtain ⟨hp, ⟨-, rfl⟩ | ⟨rest, -, rfl⟩ | ⟨_, rest, -, -, rfl⟩ | ⟨x, rest, i, -, -, hd, he⟩⟩ := step_cases h
  · exact hs
  · exact hReset _ (hInbox _ _ hs) hp
  · exact hInbox _ _ hs
  · exact hExec (s.withInbox rest) i x (hInbox _ _ hs) hp hd t he

end Sys2Proof.Machine
end

