-- ==== Sys2Proof/Laws/Exec.lean ====
section
/-! SUPPORT. What executing an instruction can do, said once: a run of answered calls, each bracketed and listed, and
then one of six ends. Every invariant of the machine is a short case analysis of `exec_ends`. -/

namespace Sys2Proof.Machine

/-- `t` comes from `s` by `n` answered calls other than TDEINIT, with chip-select's bracket at level `l` (R52). Under
the premise `W` the calls are the beginning of listed transactions, and the last one leaves phase `p` (R92). -/
inductive Ran (W : Prop) (s : State) : State → Nat → Bool → Phase → Prop where
  | start : Ran W s s 0 false .closed
  | call {t u : State} {n : Nat} {l l' : Bool} {p p' : Phase} {c : Call} {a : Answer} {bs : List Byte} :
      Ran W s t n l p → (W → phaseStep s.mode p c = some p') → c ≠ .tdeinit → bracketStep (some l) c = some l' →
      transportCall c t = .answered a bs u → Ran W s u (n + 1) l' p'

/-- How an instruction ends that answers a next state `t`. -/
inductive Ends (W : Prop) (i : Instr) (s t : State) : Prop where
  /-- A response and nothing else after the calls. -/
  | responded {u : State} {n : Nat} (r : Response) : Ran W s u n false .closed → n ≤ 4 → statusLegal r.status = true →
      t = u.answerHost r → Ends W i s t
  /-- A call that never returns. -/
  | hung {u : State} {n : Nat} {l l' : Bool} {p p' : Phase} (c : Call) : Ran W s u n l p → n ≤ 3 →
      (W → phaseStep s.mode p c = some p') → bracketStep (some l) c = some l' → transportCall c u = .hung t →
      Ends W i s t
  /-- The stop of a failed precondition (R184). -/
  | stopped : s.config.assertFatal = true → s.failsCheck i = true → t = s.halt → Ends W i s t
  /-- The return of a wire instruction run on its own. -/
  | returned {u : State} {n : Nat} (r : PrimResult) : Ran W s u n false .closed → n ≤ 4 →
      (∀ q, decodeRequest q ≠ .ok i) → t = u.returnPrim r → Ends W i s t
  /-- A passed self-test (R161). -/
  | ready {u : State} {n : Nat} (b : Byte) : Ran W s u n false .closed → n ≤ 4 → i = .init →
      u.trace = s.trace ++ selfTestTrace b → snapshotWel b = true →
      t = (u.setInitialized true).answerHost (statusResponse statusOK) → Ends W i s t
  /-- A completed deinit (R163). -/
  | closed {u v : State} {n : Nat} (a : Answer) (r : Response) : Ran W s u n false .closed → n ≤ 3 → i = .deinit →
      transportCall .tdeinit u = .answered a [] v → statusLegal r.status = true →
      t = (v.setInitialized false).answerHost r → Ends W i s t

/-- What a run of calls leaves alone. -/
theorem Ran.frame {W : Prop} {s t : State} {n : Nat} {l : Bool} {p : Phase} (h : Ran W s t n l p) :
    t = { s with script := t.script, draws := t.draws, cs := t.cs, up := t.up, wel := t.wel, mem := t.mem, txn := t.txn,
                 trace := t.trace } := by
  induction h with
  | start => rfl
  | call _ _ _ _ hc ih =>
    have hf := (transportCall_answered hc).1
    unfold callFrame at hf
    rw [ih] at hf
    exact hf.trans (by rw [hf])

theorem Ran.mode {W : Prop} {s t : State} {n : Nat} {l : Bool} {p : Phase} (h : Ran W s t n l p) :
    t.mode = s.mode := by
  rw [h.frame]; rfl

/-- One more call of a run, whatever comes of it. -/
theorem ends_callThen {W : Prop} {i : Instr} {s t : State} {n : Nat} {l l' : Bool} {p p' : Phase} {c : Call}
    {k : Answer → List Byte → State → Result} (hr : Ran W s t n l p) (hn : n ≤ 3)
    (hl : W → phaseStep s.mode p c = some p') (hd : c ≠ .tdeinit) (hb : bracketStep (some l) c = some l')
    (hk : ∀ a bs u, transportCall c t = .answered a bs u → Ran W s u (n + 1) l' p' →
      nextHas (Ends W i s) (k a bs u)) :
    nextHas (Ends W i s) (callThen c t k) :=
  nextHas_callThen (fun a bs u hc => hk a bs u hc (hr.call hl hd hb hc)) fun _ hc => .hung c hr hn hl hb hc

theorem ends_precond {W : Prop} {i : Instr} {s : State} {code : BitVec 8} (h : statusLegal code = true)
    (hf : s.failsCheck i = true) : nextHas (Ends W i s) (raisePrecond code s) :=
  nextHas_raisePrecond (fun ha => .stopped ha hf rfl)
    fun _ => .responded (statusResponse code) .start (Nat.zero_le _) h rfl

theorem ends_respond {W : Prop} {i : Instr} {s t : State} {n : Nat} {r : Response} (hr : Ran W s t n false .closed) (hn : n ≤ 4)
    (h : statusLegal r.status = true) : nextHas (Ends W i s) (respond r t) :=
  nextHas_respond (.responded r hr hn h rfl)

theorem ends_primitive {W : Prop} {i : Instr} {s t : State} {n : Nat} {st : BitVec 8} {bs : List Byte}
    (hr : Ran W s t n false .closed) (hn : n ≤ 4) (hi : ∀ q, decodeRequest q ≠ .ok i) :
    nextHas (Ends W i s) (endPrimitive st bs t) :=
  nextHas_next (.returned ⟨st, bs⟩ hr hn hi rfl)

theorem isFrame_frame (m : Mode) (i : FrameInstr) (a : Word) : isFrame m i (frame m i a) = true := by
  have h := decodeInstr_frame m i a []
  rw [List.append_nil] at h
  unfold isFrame
  rw [h]
  simp

/-- A frame opens the transaction of its instruction (R92). -/
theorem phaseStep_frame (m : Mode) (i : FrameInstr) (a : Word) :
    phaseStep m .closed (.tx (frame m i a) .assert) = some (match i with | .read => .reading | .write => .writing) := by
  have hs : frame m i a ≠ [codeRDSR] := fun h => by
    have := congrArg List.length h
    revert this
    cases m <;> simp [frame]
  have hf := isFrame_frame m i a
  cases i with
  | read => simp [phaseStep, hs, hf]
  | write =>
    have hr : isFrame m .read (frame m .write a) = false := by
      unfold isFrame at hf ⊢
      simp only [Bool.and_eq_true, beq_iff_eq] at hf
      rw [hf.2]
      simp [FrameInstr.code, codeREAD, codeWRITE]
    simp [phaseStep, hs, hf, hr]

/-- ORs of transport statuses are legal (R182, R188). -/
theorem statusLegal_tr (a b : Answer) : statusLegal (tr a ||| tr b) = true := by
  cases a <;> cases b <;> rfl

theorem statusLegal_tr3 (a b c : Answer) : statusLegal (tr a ||| (tr b ||| tr c)) = true := by
  cases a <;> cases b <;> cases c <;> rfl

variable {W : Prop} {i : Instr} {s t : State} {n : Nat}

theorem ends_writeEnable {K : Cont} (hr : Ran W s t n false .closed) (hn : n ≤ 3)
    (hk : ∀ a u, callFrame (.tx [codeWREN] .both) a [] t u → Ran W s u (n + 1) false .closed →
      nextHas (Ends W i s) (K (tr a) [] u)) :
    nextHas (Ends W i s) (writeEnable t K) :=
  ends_callThen hr hn (fun _ => rfl) nofun rfl fun a bs u hc hu => by
    obtain ⟨hf, -, hb, -⟩ := transportCall_answered hc
    obtain rfl : bs = [] := List.eq_nil_of_length_eq_zero hb
    exact hk a u hf hu

theorem ends_writeDisable {K : Cont} (hr : Ran W s t n false .closed) (hn : n ≤ 3)
    (hk : ∀ a u, Ran W s u (n + 1) false .closed → nextHas (Ends W i s) (K (tr a) [] u)) :
    nextHas (Ends W i s) (writeDisable t K) :=
  ends_callThen hr hn (fun _ => rfl) nofun rfl fun a _ u _ hu => hk a u hu

theorem ends_statusRead {K : Cont} (hr : Ran W s t n false .closed) (hn : n ≤ 2)
    (hk : ∀ a₁ a₂ b u, u.trace = t.trace ++ [⟨.tx [codeRDSR] .assert, some a₁, []⟩, ⟨.rx 1 .release, some a₂, [b]⟩] →
      Ran W s u (n + 2) false .closed → nextHas (Ends W i s) (K (tr a₁ ||| tr a₂) [b] u)) :
    nextHas (Ends W i s) (statusRead t K) :=
  ends_callThen hr (by omega) (fun _ => rfl) nofun rfl fun a₁ bs v hc hv =>
    ends_callThen hv (by omega) (fun _ => rfl) nofun rfl fun a₂ bs' u hd hu => by
      obtain ⟨hf, -, hb, -⟩ := transportCall_answered hc
      obtain ⟨hf', -, hb', -⟩ := transportCall_answered hd
      obtain rfl : bs = [] := List.eq_nil_of_length_eq_zero hb
      obtain ⟨b, rfl⟩ := List.length_eq_one_iff.mp hb'
      refine hk a₁ a₂ b u ?_ hu
      rw [hf', hf]
      simp

theorem ends_readTransaction {K : Cont} {addr : Word} {m : Nat} (hr : Ran W s t n false .closed) (hn : n ≤ 2)
    (hm : W → 0 < m)
    (hk : ∀ a₁ a₂ d u, Ran W s u (n + 2) false .closed → nextHas (Ends W i s) (K (tr a₁ ||| tr a₂) d u)) :
    nextHas (Ends W i s) (readTransaction addr m t K) :=
  ends_callThen (p' := .reading) hr (by omega) (fun _ => by rw [hr.mode]; exact phaseStep_frame _ _ _) nofun rfl
    fun a₁ _ _ _ hv => ends_callThen (p' := .closed) hv (by omega) (fun w => if_pos (hm w)) nofun rfl
      fun a₂ d u _ hu => hk a₁ a₂ d u hu

theorem ends_writeTransaction {K : Cont} {addr : Word} {data : List Byte} (hr : Ran W s t n false .closed) (hn : n ≤ 2)
    (hk : ∀ a₁ a₂ u, Ran W s u (n + 2) false .closed → nextHas (Ends W i s) (K (tr a₁ ||| tr a₂) [] u)) :
    nextHas (Ends W i s) (writeTransaction addr data t K) :=
  ends_callThen (p' := .writing) hr (by omega) (fun _ => by rw [hr.mode]; exact phaseStep_frame _ _ _) nofun rfl
    fun a₁ _ _ _ hv => ends_callThen (p' := .closed) hv (by omega) (fun _ => rfl) nofun rfl
      fun a₂ _ u _ hu => hk a₁ a₂ u hu

theorem ends_inMode {m : Mode} {body : Result} (h : nextHas (Ends W i s) body) : nextHas (Ends W i s) (inMode m s body) := by
  unfold inMode
  split
  · exact h
  · exact nextHas_refused

theorem ends_wireRead {m : Mode} {addr : Word} {k : Nat} (hi : ∀ q, decodeRequest q ≠ .ok i) (hk : W → 0 < k) :
    nextHas (Ends W i s) (inMode m s (readTransaction addr k s endPrimitive)) :=
  ends_inMode (ends_readTransaction .start (by omega) hk fun _ _ _ _ hu => ends_primitive hu (by omega) hi)

theorem ends_wireWrite {m : Mode} {addr : Word} {data : List Byte} (hi : ∀ q, decodeRequest q ≠ .ok i) :
    nextHas (Ends W i s) (inMode m s (writeTransaction addr data s endPrimitive)) :=
  ends_inMode (ends_writeTransaction .start (by omega) fun _ _ _ hu => ends_primitive hu (by omega) hi)

theorem pastEnd_eq (s : State) (addr size : Word) :
    s.pastEnd addr size = decide (s.arraySize < addr.toNat + size.toNat) := rfl

theorem ends_writeOperation {addr size : Word} {data : List Byte} (hi : s.initialized = false → s.failsCheck i = true)
    (hb : s.config.writeBoundCheck = true ∧ s.pastEnd addr size = true → s.failsCheck i = true) :
    nextHas (Ends W i s) (writeOperation addr size data s) := by
  unfold writeOperation
  split
  · exact ends_precond rfl (hi ‹_›)
  · split
    · exact ends_precond rfl (hb ‹_›)
    · exact ends_writeEnable .start (by omega) fun a _ _ hu => ends_writeTransaction hu (by omega) fun a₁ a₂ _ hv =>
        ends_respond hv (by omega) (statusLegal_tr3 a a₁ a₂)

theorem ends_init : nextHas (Ends W .init s) (execInit s) := by
  unfold execInit
  split
  · exact ends_respond .start (by omega) rfl
  · refine ends_callThen .start (by omega) (fun _ => rfl) nofun rfl fun a bs u hc hu => ?_
    cases a with
    | fail => exact ends_respond hu (by omega) rfl
    | ok =>
      obtain ⟨hf, -, hb, -⟩ := transportCall_answered hc
      obtain rfl : bs = [] := List.eq_nil_of_length_eq_zero hb
      refine ends_writeEnable hu (by omega) fun a₀ v hg hv => ends_statusRead hv (by omega) fun a₁ a₂ b w ht hw => ?_
      unfold finishSelfTest
      split
      · rename_i h
        refine nextHas_respond (.ready b hw (by omega) rfl ?_ h.2.2 rfl)
        obtain ⟨h₀, h₁, -⟩ := h
        have e : a₀ = .ok ∧ a₁ = .ok ∧ a₂ = .ok := by
          revert h₀ h₁
          cases a₀ <;> cases a₁ <;> cases a₂ <;> decide
        obtain ⟨rfl, rfl, rfl⟩ := e
        rw [ht, hg, hf]
        simp [selfTestTrace]
      · exact ends_respond hw (by omega) rfl

theorem ends_deinit : nextHas (Ends W .deinit s) (execDeinit s) := by
  unfold execDeinit
  split
  · refine ends_writeDisable .start (by omega) fun a₀ u hu => nextHas_callThen (fun a bs v hc => ?_) fun v hc => ?_
    · obtain ⟨-, -, hb, -⟩ := transportCall_answered hc
      obtain rfl : bs = [] := List.eq_nil_of_length_eq_zero hb
      exact nextHas_respond (.closed a _ hu (by omega) rfl hc (statusLegal_tr a₀ a) rfl)
    · exact .hung (l' := false) .tdeinit hu (by omega) (fun _ => rfl) rfl hc
  · exact ends_respond .start (by omega) rfl

/-- What a host request decodes to is a host operation (R88). -/
theorem encode_of_decodeRequest {q : HostRequest} (h : decodeRequest q = .ok i) : ∃ r, encode i = .request r := by
  unfold decodeRequest at h
  repeat' split at h
  all_goals cases h
  all_goals exact ⟨_, rfl⟩

/-- No host request decodes to a wire instruction (R80). -/
theorem not_decodeRequest {x : Transaction} (hi : encode i = .primitive x) : ∀ q, decodeRequest q ≠ .ok i := fun q h => by
  obtain ⟨r, hr⟩ := encode_of_decodeRequest h
  cases hr.symm.trans hi

/-- What an instruction can do. -/
theorem exec_ends (i : Instr) (s : State) : nextHas (Ends (i.wellFormed s.mode = true) i s) (exec i s) := by
  cases i with
  | wren => exact ends_writeEnable .start (by omega) fun _ _ _ hu => ends_primitive hu (by omega) (not_decodeRequest rfl)
  | wrdi => exact ends_writeDisable .start (by omega) fun _ _ hu => ends_primitive hu (by omega) (not_decodeRequest rfl)
  | rdsr => exact ends_statusRead .start (by omega) fun _ _ _ _ _ hu =>
      ends_primitive hu (by omega) (not_decodeRequest rfl)
  | readA9 _ _ => exact ends_wireRead (not_decodeRequest rfl) fun w => by simp [Instr.wellFormed] at w; exact w.2
  | readA16 _ _ => exact ends_wireRead (not_decodeRequest rfl) fun w => by simp [Instr.wellFormed] at w; exact w.2
  | readA24 _ _ => exact ends_wireRead (not_decodeRequest rfl) fun w => by simp [Instr.wellFormed] at w; exact w.2
  | writeA9 _ _ => exact ends_wireWrite (not_decodeRequest rfl)
  | writeA16 _ _ => exact ends_wireWrite (not_decodeRequest rfl)
  | writeA24 _ _ => exact ends_wireWrite (not_decodeRequest rfl)
  | wrsr => exact nextHas_refused
  | rdid => exact nextHas_refused
  | sleep => exact nextHas_refused
  | fstrd => exact nextHas_refused
  | snr => exact nextHas_refused
  | init => exact ends_init
  | deinit => exact ends_deinit
  | isInitialized => exact ends_respond .start (by omega) rfl
  | read addr size =>
    change nextHas _ (execRead addr size s)
    unfold execRead
    split
    · exact ends_precond rfl (by simp [State.failsCheck, ‹_›])
    · split
      · exact ends_precond rfl (by simp [State.failsCheck, ‹_›])
      · rename_i hz
        split
        · rename_i hp
          rw [pastEnd_eq] at hp
          exact ends_precond rfl (by simp [State.failsCheck, of_decide_eq_true hp])
        · refine ends_readTransaction .start (by omega) (fun _ => ?_) fun a₁ a₂ _ _ hu =>
            ends_respond hu (by omega) (statusLegal_tr a₁ a₂)
          exact Nat.pos_of_ne_zero fun h => hz (BitVec.eq_of_toNat_eq h)
  | write _ _ _ =>
    exact ends_writeOperation (fun h => by simp [State.failsCheck, h]) fun ⟨h, h'⟩ => by
      rw [pastEnd_eq] at h'
      simp [State.failsCheck, h, of_decide_eq_true h']
  | erase addr size =>
    change nextHas _ (execErase addr size s)
    unfold execErase
    split
    · exact ends_precond rfl (by simp [State.failsCheck, ‹_›])
    · split
      · rename_i hz
        exact ends_precond rfl (by simp [State.failsCheck, show 256 ≤ size.toNat from hz])
      · exact ends_writeOperation (fun h => by simp [State.failsCheck, h]) fun ⟨h, h'⟩ => by
          rw [pastEnd_eq] at h'
          simp [State.failsCheck, h, of_decide_eq_true h']
  | reserved6 => exact ends_precond rfl rfl
  | reserved7 => exact ends_precond rfl rfl

end Sys2Proof.Machine
end

