-- ==== Sys2Proof/Laws/PerInstr.lean ====
section
/-! SUPPORT. A law of every instruction as syntax: its encoding carries the fixed bits that its row of
spec/opcode_table.json gives (match under mask), in the row's space, over at least the row's leading bytes. -/

namespace Sys2Proof.Laws.TableBits

/-- The row of an instruction in the opcode table: match, mask and length_bytes (0 for a host row). -/
def row : Instr → Nat × Nat × Nat
  | .wren => (0x06, 0xFF, 1)
  | .wrdi => (0x04, 0xFF, 1)
  | .rdsr => (0x05, 0xFF, 1)
  | .readA9 _ _ => (0x03, 0x7F, 2)
  | .readA16 _ _ => (0x03, 0xFF, 3)
  | .readA24 _ _ => (0x03, 0xFF, 4)
  | .writeA9 _ _ => (0x02, 0x7F, 2)
  | .writeA16 _ _ => (0x02, 0xFF, 3)
  | .writeA24 _ _ => (0x02, 0xFF, 4)
  | .wrsr => (0x01, 0xFF, 1)
  | .rdid => (0x9F, 0xFF, 1)
  | .sleep => (0xB9, 0xFF, 1)
  | .fstrd => (0x0B, 0xFF, 1)
  | .snr => (0xC3, 0xFF, 1)
  | .init => (0, 7, 0)
  | .deinit => (1, 7, 0)
  | .isInitialized => (2, 7, 0)
  | .read _ _ => (3, 7, 0)
  | .write _ _ _ => (4, 7, 0)
  | .erase _ _ => (5, 7, 0)
  | .reserved6 => (6, 7, 0)
  | .reserved7 => (7, 7, 0)

/-- The encoding of `i` carries its row's fixed bits in the row's space. -/
def Statement (i : Instr) : Prop :=
  match encode i with
  | .request r => (row i).2.2 = 0 ∧ r.op.toNat &&& (row i).2.1 = (row i).1
  | .primitive t => 0 < (row i).2.2 ∧ (row i).2.2 ≤ t.out.length ∧
      ∃ b, t.out.head? = some b ∧ b.toNat &&& (row i).2.1 = (row i).1
  | .reset => False

/-- In mode A9 the fold bit does not reach the row's fixed bits. -/
theorem fold_masked (i : FrameInstr) (b : Bool) : (forceFoldBit i.code b).toNat &&& 0x7F = i.code.toNat := by
  cases i <;> cases b <;> decide

theorem wren : Statement .wren := ⟨by decide, by decide, _, rfl, rfl⟩
theorem wrdi : Statement .wrdi := ⟨by decide, by decide, _, rfl, rfl⟩
theorem rdsr : Statement .rdsr := ⟨by decide, by decide, _, rfl, rfl⟩
theorem readA9 (addr : BitVec 9) (n : Nat) : Statement (.readA9 addr n) :=
  ⟨Nat.succ_pos _, Nat.le_refl 2, _, rfl, fold_masked .read _⟩
theorem readA16 (addr : BitVec 16) (n : Nat) : Statement (.readA16 addr n) :=
  ⟨Nat.succ_pos _, Nat.le_refl 3, _, rfl, (by decide : codeREAD.toNat &&& 0xFF = codeREAD.toNat)⟩
theorem readA24 (addr : BitVec 24) (n : Nat) : Statement (.readA24 addr n) :=
  ⟨Nat.succ_pos _, Nat.le_refl 4, _, rfl, (by decide : codeREAD.toNat &&& 0xFF = codeREAD.toNat)⟩
theorem writeA9 (addr : BitVec 9) (data : List Byte) : Statement (.writeA9 addr data) :=
  ⟨Nat.succ_pos _, by simp [row, Mode.frameLen, Mode.addrBytes], _, rfl, fold_masked .write _⟩
theorem writeA16 (addr : BitVec 16) (data : List Byte) : Statement (.writeA16 addr data) :=
  ⟨Nat.succ_pos _, by simp [row, Mode.frameLen, Mode.addrBytes], _, rfl, (by decide : codeWRITE.toNat &&& 0xFF = codeWRITE.toNat)⟩
theorem writeA24 (addr : BitVec 24) (data : List Byte) : Statement (.writeA24 addr data) :=
  ⟨Nat.succ_pos _, by simp [row, Mode.frameLen, Mode.addrBytes], _, rfl, (by decide : codeWRITE.toNat &&& 0xFF = codeWRITE.toNat)⟩
theorem wrsr : Statement .wrsr := ⟨by decide, by decide, _, rfl, rfl⟩
theorem rdid : Statement .rdid := ⟨by decide, by decide, _, rfl, rfl⟩
theorem sleep : Statement .sleep := ⟨by decide, by decide, _, rfl, rfl⟩
theorem fstrd : Statement .fstrd := ⟨by decide, by decide, _, rfl, rfl⟩
theorem snr : Statement .snr := ⟨by decide, by decide, _, rfl, rfl⟩
theorem init : Statement .init := ⟨rfl, rfl⟩
theorem deinit : Statement .deinit := ⟨rfl, rfl⟩
theorem isInitialized : Statement .isInitialized := ⟨rfl, rfl⟩
theorem read (addr size : Word) : Statement (.read addr size) :=
  ⟨rfl, (by decide : (3#3).toNat &&& 7 = 3)⟩
theorem write (addr size : Word) (data : List Byte) : Statement (.write addr size data) :=
  ⟨rfl, (by decide : (4#3).toNat &&& 7 = 4)⟩
theorem erase (addr size : Word) : Statement (.erase addr size) :=
  ⟨rfl, (by decide : (5#3).toNat &&& 7 = 5)⟩
theorem reserved6 : Statement .reserved6 := ⟨rfl, rfl⟩
theorem reserved7 : Statement .reserved7 := ⟨rfl, rfl⟩

end Sys2Proof.Laws.TableBits
end

