-- ==== Sys2Proof/Tests/Slice0.lean ====
section
/-! SUPPORT. Small tests and witnesses. Expected values come from the vectors (V…) and programs (P…) of
spec/95_test_vectors.md, from the patterns of spec/30_encoding.md (R81, R92) and of the opcode table, or from the rule
named beside a test. A witness shows values that meet all hypotheses of the statement it is named after. -/

namespace Sys2Proof.Tests

open Sys2Proof.Machine

/-! ### Helpers -/

def bits9 : AddrBits := ⟨9, by decide, by decide⟩
def bits10 : AddrBits := ⟨10, by decide, by decide⟩
def bits13 : AddrBits := ⟨13, by decide, by decide⟩
def bits15 : AddrBits := ⟨15, by decide, by decide⟩
def bits16 : AddrBits := ⟨16, by decide, by decide⟩
def bits17 : AddrBits := ⟨17, by decide, by decide⟩
def bits19 : AddrBits := ⟨19, by decide, by decide⟩

/-- A block after reset with the reference device. -/
def fresh (b : AddrBits) : State := State.resetOf ⟨b, false, false⟩

/-- A block in Ready with the reference device as init leaves it. -/
def ready (b : AddrBits) : State := { fresh b with initialized := true, up := true, wel := true }

/-- A block in Ready with WRITE_BOUND_CHECK. -/
def checked (b : AddrBits) : State := { ready b with config := ⟨b, true, false⟩ }

/-- A block in Ready with ASSERT_FATAL. -/
def fatal (b : AddrBits) : State := { ready b with config := ⟨b, false, true⟩ }

/-- A block with transport answers given by hand. -/
def scripted (b : AddrBits) (initialized : Bool) (replies : List Reply) : State :=
  { fresh b with link := .oracle, initialized := initialized, script := replies, up := initialized }

def okay : Reply := ⟨some .ok, []⟩
def failed : Reply := ⟨some .fail, []⟩
def never : Reply := ⟨none, []⟩
def okBytes (l : List Byte) : Reply := ⟨some .ok, l⟩

/-- A field of the next state, none where there is none. -/
def after {α : Type} (f : State → α) : Result → Option α
  | .next t => some (f t)
  | _ => none

/-- Why there is no next state. -/
def stop : Result → Option (Fault ⊕ Refusal)
  | .next _ => none
  | .fault f => some (.inl f)
  | .refused r => some (.inr r)

/-- A small state that is not idle. -/
def waitingState : State := { fresh bits9 with position := .waiting .tinit, link := .oracle }

def wrenCall : Call := .tx [0x06#8] .both

/-! ### Well-formedness: an ill-formed term for each check -/

theorem test_wellFormed_write_length : Instr.wellFormed .a16 (.write 0#32 2#32 [0x11#8]) = false := by decide
theorem test_wellFormed_readA9_mode : Instr.wellFormed .a16 (.readA9 0#9 1) = false := by decide
theorem test_wellFormed_readA16_mode : Instr.wellFormed .a24 (.readA16 0#16 1) = false := by decide
theorem test_wellFormed_readA24_mode : Instr.wellFormed .a9 (.readA24 0#24 1) = false := by decide
theorem test_wellFormed_readA9_count : Instr.wellFormed .a9 (.readA9 0#9 0) = false := by decide
theorem test_wellFormed_readA16_count : Instr.wellFormed .a16 (.readA16 0#16 0) = false := by decide
theorem test_wellFormed_readA24_count : Instr.wellFormed .a24 (.readA24 0#24 0) = false := by decide
theorem test_wellFormed_writeA9_mode : Instr.wellFormed .a24 (.writeA9 0#9 []) = false := by decide
theorem test_wellFormed_writeA16_mode : Instr.wellFormed .a9 (.writeA16 0#16 []) = false := by decide
theorem test_wellFormed_writeA24_mode : Instr.wellFormed .a16 (.writeA24 0#24 []) = false := by decide

/-! ### Decoding: the words written out from the encodings -/

theorem test_decode_wren : decode .a9 (.primitive ⟨[0b00000110#8], 0⟩) = .ok .wren := by decide
theorem test_decode_wrdi : decode .a16 (.primitive ⟨[0b00000100#8], 0⟩) = .ok .wrdi := by decide
theorem test_decode_rdsr : decode .a24 (.primitive ⟨[0b00000101#8], 1⟩) = .ok .rdsr := by decide
/-- X2: `Frame(READ, 0x1FF)` is `[83 FF]`. -/
theorem test_decode_readA9 :
    decode .a9 (.primitive ⟨[0b10000011#8, 0b11111111#8], 1⟩) = .ok (.readA9 0b111111111#9 1) := by decide
/-- V12. -/
theorem test_decode_readA16 :
    decode .a16 (.primitive ⟨[0b00000011#8, 0b00010010#8, 0b00110100#8], 3⟩) = .ok (.readA16 0x1234#16 3) := by decide
/-- V22. -/
theorem test_decode_readA24 :
    decode .a24 (.primitive ⟨[0b00000011#8, 0b00000010#8, 0b10101011#8, 0b11001101#8], 1⟩) =
      .ok (.readA24 0x02ABCD#24 1) := by decide
/-- V5, V6: the fold bit alone tells the two addresses apart. -/
theorem test_decode_writeA9 :
    decode .a9 (.primitive ⟨[0b00000010#8, 0b10100101#8, 0x77#8], 0⟩) = .ok (.writeA9 0x0A5#9 [0x77#8]) ∧
    decode .a9 (.primitive ⟨[0b10000010#8, 0b10100101#8, 0x77#8], 0⟩) = .ok (.writeA9 0x1A5#9 [0x77#8]) := by decide
/-- V14: a surplus bit stays. -/
theorem test_decode_writeA16 :
    decode .a16 (.primitive ⟨[0b00000010#8, 0b00100000#8, 0b00000000#8], 0⟩) = .ok (.writeA16 0x2000#16 []) := by decide
/-- V23. -/
theorem test_decode_writeA24 :
    decode .a24 (.primitive ⟨[0b00000010#8, 0b00000111#8, 0xFF#8, 0xFF#8, 0x5A#8], 0⟩) =
      .ok (.writeA24 0x07FFFF#24 [0x5A#8]) := by decide
theorem test_decode_wrsr : decode .a9 (.primitive ⟨[0b00000001#8], 0⟩) = .ok .wrsr := by decide
theorem test_decode_rdid : decode .a9 (.primitive ⟨[0b10011111#8], 0⟩) = .ok .rdid := by decide
theorem test_decode_sleep : decode .a16 (.primitive ⟨[0b10111001#8], 0⟩) = .ok .sleep := by decide
theorem test_decode_fstrd : decode .a24 (.primitive ⟨[0b00001011#8], 0⟩) = .ok .fstrd := by decide
theorem test_decode_snr : decode .a9 (.primitive ⟨[0b11000011#8], 0⟩) = .ok .snr := by decide
theorem test_decode_init : decode .a9 (.request ⟨0b000#3, 9#32, 9#32, []⟩) = .ok .init := by decide
theorem test_decode_deinit : decode .a9 (.request ⟨0b001#3, 0#32, 0#32, []⟩) = .ok .deinit := by decide
theorem test_decode_isInitialized :
    decode .a9 (.request ⟨0b010#3, 0#32, 0#32, []⟩) = .ok .isInitialized := by decide
theorem test_decode_read :
    decode .a9 (.request ⟨0b011#3, 0x1FE#32, 2#32, []⟩) = .ok (.read 0x1FE#32 2#32) := by decide
theorem test_decode_write :
    decode .a9 (.request ⟨0b100#3, 0x1FE#32, 2#32, [0xDE#8, 0xAD#8]⟩) =
      .ok (.write 0x1FE#32 2#32 [0xDE#8, 0xAD#8]) := by decide
theorem test_decode_erase :
    decode .a16 (.request ⟨0b101#3, 0x100#32, 4#32, []⟩) = .ok (.erase 0x100#32 4#32) := by decide
theorem test_decode_reserved6 : decode .a16 (.request ⟨0b110#3, 0#32, 0#32, []⟩) = .ok .reserved6 := by decide
theorem test_decode_reserved7 : decode .a24 (.request ⟨0b111#3, 0#32, 0#32, []⟩) = .ok .reserved7 := by decide

/-- R84: 0x00, and 0x83 outside mode A9, are no instruction bytes. -/
theorem test_decode_unknown :
    decode .a9 (.primitive ⟨[0x00#8], 0⟩) = .error (.unknownInstruction 0x00#8) ∧
    decode .a16 (.primitive ⟨[0x83#8, 0x00#8, 0x00#8], 1⟩) = .error (.unknownInstruction 0x83#8) := by decide
/-- The decoder's other rejections, one each. -/
theorem test_decode_rejects :
    decode .a9 (.primitive ⟨[], 0⟩) = .error .emptyTransaction ∧
    decode .a24 (.primitive ⟨[0x03#8, 0x00#8, 0x00#8], 1⟩) = .error .truncatedFrame ∧
    decode .a9 (.primitive ⟨[0x06#8, 0x00#8], 0⟩) = .error .trailingBytes ∧
    decode .a9 (.primitive ⟨[0x05#8], 2⟩) = .error .receiveCount ∧
    decode .a9 (.request ⟨4#3, 0#32, 2#32, [0x00#8]⟩) = .error .writeDataLength ∧
    decode .a9 .reset = .error .notAnInstruction := by decide

/-- V7, V15, V25: surplus address bits of a frame. -/
theorem test_frame_surplus_bits :
    frame .a9 .write 0x2A5#32 = [0x02#8, 0xA5#8] ∧ frame .a16 .write 0x12345#32 = [0x02#8, 0x23#8, 0x45#8] ∧
    frame .a24 .write 0x01020304#32 = [0x02#8, 0x02#8, 0x03#8, 0x04#8] := by decide

/-- Words of the opcode table, as its rows number them. -/
theorem test_decodeTableWord :
    decodeTableWord 8 0x06 = some .wren ∧ decodeTableWord 16 0xFF83 = some (.readA9 0x1FF#9 1) ∧
    decodeTableWord 24 0x341202 = some (.writeA16 0x1234#16 []) ∧
    decodeTableWord 32 0xFEFF0703 = some (.readA24 0x07FFFE#24 1) ∧ decodeTableWord 8 0xB9 = some .sleep ∧
    decodeTableWord 3 5 = some (.erase 0#32 0#32) ∧ decodeTableWord 8 3 = some (.read 0#32 0#32) := by decide

/-- The placed word is the very next instruction: WREN on the device, and a host operation. -/
theorem test_withFetchWord :
    after (fun t => (t.wel, t.trace)) (step (State.reset.withFetchWord 8 0x06)) =
      some (true, [⟨wrenCall, some .ok, []⟩]) ∧
    after State.responses (step (State.reset.withFetchWord 8 2)) = some [⟨0x00#8, [], some false⟩] := by decide

/-! ### Wire instructions -/

/-- V27 on the device of R60 to R65. -/
theorem test_wren :
    after (fun t => (t.trace, t.primResult, t.wel, t.cs)) (exec .wren { ready bits9 with wel := false }) =
      some ([⟨.tx [0x06#8] .both, some .ok, []⟩], some ⟨0x00#8, []⟩, true, false) := by decide
/-- V28. -/
theorem test_wren_fail :
    after (fun t => (t.trace, t.primResult)) (exec .wren (scripted bits13 false [failed])) =
      some ([⟨.tx [0x06#8] .both, some .fail, []⟩], some ⟨0x02#8, []⟩) := by decide
/-- V29. -/
theorem test_wrdi :
    after (fun t => (t.trace, t.primResult, t.wel)) (exec .wrdi (ready bits13)) =
      some ([⟨.tx [0x04#8] .both, some .ok, []⟩], some ⟨0x00#8, []⟩, false) := by decide
/-- V30. -/
theorem test_wrdi_fail :
    after (fun t => (t.trace, t.primResult)) (exec .wrdi (scripted bits9 false [failed])) =
      some ([⟨.tx [0x04#8] .both, some .fail, []⟩], some ⟨0x02#8, []⟩) := by decide
/-- V31c: the byte is returned as received. -/
theorem test_rdsr :
    after (fun t => (t.trace, t.primResult)) (exec .rdsr (scripted bits13 false [okay, okBytes [0x8E#8]])) =
      some ([⟨.tx [0x05#8] .assert, some .ok, []⟩, ⟨.rx 1 .release, some .ok, [0x8E#8]⟩],
        some ⟨0x00#8, [0x8E#8]⟩) := by decide
/-- V31f: the RX is made after a failed TX. -/
theorem test_rdsr_fail :
    after (fun t => (t.trace.length, t.primResult, t.cs)) (exec .rdsr (scripted bits13 false [failed, okBytes [0x02#8]])) =
      some (2, some ⟨0x02#8, [0x02#8]⟩, false) := by decide
/-- V31c, V31d, V31e: the fields of a snapshot. -/
theorem test_snapshot_fields :
    (snapshotWel 0x8E#8, snapshotBp 0x8E#8, snapshotWpen 0x8E#8) = (true, 3#2, true) ∧
    (snapshotWel 0xFD#8, snapshotBp 0xFD#8, snapshotWpen 0xFD#8) = (false, 3#2, true) ∧
    (snapshotWel 0x71#8, snapshotBp 0x71#8, snapshotWpen 0x71#8) = (false, 0#2, false) := by decide
/-- R87: the codes of the policies; 0b00 is none. -/
theorem test_policy_codes :
    policyOf 0b00#2 = none ∧ policyOf Policy.assert.code = some .assert ∧
    policyOf Policy.release.code = some .release ∧ policyOf Policy.both.code = some .both := by decide

/-- A READ at 0x1FF of the 9-bit device runs on at 0x000 (R64). -/
theorem test_readA9_wraps :
    after State.primResult (exec (.readA9 0x1FF#9 2) { ready bits9 with mem := [(0, 0x22#8), (0x1FF, 0x11#8)] }) =
      some (some ⟨0x00#8, [0x11#8, 0x22#8]⟩) := by decide
/-- V32 as a transaction. -/
theorem test_readA16 :
    after (fun t => (t.trace, t.primResult))
      (exec (.readA16 0x0123#16 2) (scripted bits13 true [okay, okBytes [0xAA#8, 0xBB#8]])) =
      some ([⟨.tx [0x03#8, 0x01#8, 0x23#8] .assert, some .ok, []⟩, ⟨.rx 2 .release, some .ok, [0xAA#8, 0xBB#8]⟩],
        some ⟨0x00#8, [0xAA#8, 0xBB#8]⟩) := by decide
/-- V47 as a transaction. -/
theorem test_readA24 :
    after (fun t => t.trace.head?) (exec (.readA24 0x07FFFF#24 1) (ready bits19)) =
      some (some ⟨.tx [0x03#8, 0x07#8, 0xFF#8, 0xFF#8] .assert, some .ok, []⟩) := by decide
/-- P1: the write transaction at 0x1FE. -/
theorem test_writeA9 :
    after (fun t => (t.mem, t.wel, t.trace)) (exec (.writeA9 0x1FE#9 [0xDE#8, 0xAD#8]) (ready bits9)) =
      some ([(0x1FE, 0xDE#8), (0x1FF, 0xAD#8)], false,
        [⟨.tx [0x82#8, 0xFE#8] .assert, some .ok, []⟩, ⟨.tx [0xDE#8, 0xAD#8] .release, some .ok, []⟩]) := by decide
/-- R62: the latch clear, nothing is stored. -/
theorem test_writeA16_latch_clear :
    after State.mem (exec (.writeA16 0x0000#16 [0x5A#8]) { ready bits13 with wel := false }) = some [] := by decide
/-- P6. -/
theorem test_writeA24 :
    after (fun t => (t.mem, t.wel)) (exec (.writeA24 0x00FFFF#24 [0xA1#8]) (ready bits16)) =
      some ([(0xFFFF, 0xA1#8)], false) := by decide
/-- R70: a frame of another mode. -/
theorem test_frame_of_another_mode :
    stop (exec (.writeA16 0#16 []) (ready bits9)) = some (.inr .frameOfAnotherMode) := by decide
/-- R83. -/
theorem test_unused_codes :
    stop (exec .wrsr (ready bits9)) = some (.inr (.neverEmitted 0x01#8)) ∧
    stop (exec .rdid (ready bits9)) = some (.inr (.neverEmitted 0x9F#8)) ∧
    stop (exec .sleep (ready bits9)) = some (.inr (.neverEmitted 0xB9#8)) ∧
    stop (exec .fstrd (ready bits9)) = some (.inr (.neverEmitted 0x0B#8)) ∧
    stop (exec .snr (ready bits9)) = some (.inr (.neverEmitted 0xC3#8)) := by decide
/-- R61: the reference device has no meaning for a TX with the transport down. -/
theorem test_transport_down : stop (exec .wren (fresh bits9)) = some (.inr .deviceTransportDown) := by decide
/-- R61: a second assert, and a release of a released chip-select. -/
theorem test_device_policies :
    transportCall (.tx [0x05#8] .assert) { ready bits9 with cs := true } = .refused .deviceAssertedTwice ∧
    transportCall (.rx 1 .release) (ready bits9) = .refused .deviceReleasedTwice ∧
    transportCall (.rx 1 .both) (ready bits9) = .refused .deviceOutputRequest := by decide

/-! ### Host operations -/

/-- V60, P1: init on the device. -/
theorem test_init :
    after (fun t => (t.initialized, t.responses, t.wel, t.up)) (exec .init (fresh bits9)) =
      some (true, [⟨0x00#8, [], none⟩], true, true) := by decide
/-- V64: the snapshot FD has WEL unset. -/
theorem test_init_wel_unset :
    after (fun t => (t.initialized, t.responses, t.trace.length))
      (exec .init (scripted bits17 false [okay, okay, okay, okBytes [0xFD#8]])) =
      some (false, [⟨0x04#8, [], none⟩], 4) := by decide
/-- V70, P1. -/
theorem test_deinit :
    after (fun t => (t.initialized, t.responses, t.trace, t.up)) (exec .deinit (ready bits9)) =
      some (false, [⟨0x00#8, [], none⟩], [⟨.tx [0x04#8] .both, some .ok, []⟩, ⟨.tdeinit, some .ok, []⟩], false) := by
  decide
/-- V71: the flag is cleared although a call failed. -/
theorem test_deinit_fail :
    after (fun t => (t.initialized, t.responses, t.trace.length)) (exec .deinit (scripted bits9 true [failed, okay])) =
      some (false, [⟨0x02#8, [], none⟩], 2) := by decide
/-- V75, V76. -/
theorem test_isInitialized :
    after State.responses (exec .isInitialized (fresh bits9)) = some [⟨0x00#8, [], some false⟩] ∧
    after State.responses (exec .isInitialized (ready bits9)) = some [⟨0x00#8, [], some true⟩] := by decide
/-- V36: no wrap at 32 bits. -/
theorem test_read_range :
    after (fun t => (t.responses, t.trace)) (exec (.read 0xFFFFFFFF#32 2#32) (ready bits13)) =
      some ([⟨0x08#8, [], none⟩], []) := by decide
/-- V44: the RX is made after a failed frame. -/
theorem test_read_frame_fails :
    after (fun t => (t.responses, t.trace.length))
      (exec (.read 0x0010#32 1#32) (scripted bits13 true [failed, okBytes [0x11#8]])) =
      some ([⟨0x02#8, [0x11#8], none⟩], 2) := by decide
/-- V49b, P4 part 1: the unchecked write past the end wraps on the device. -/
theorem test_write_unchecked :
    after (fun t => (t.responses, t.mem, t.trace)) (exec (.write 0x1FFF#32 2#32 [0x11#8, 0x22#8]) (ready bits13)) =
      some ([⟨0x00#8, [], none⟩], [(0, 0x22#8), (0x1FFF, 0x11#8)],
        [⟨.tx [0x06#8] .both, some .ok, []⟩, ⟨.tx [0x02#8, 0x1F#8, 0xFF#8] .assert, some .ok, []⟩,
         ⟨.tx [0x11#8, 0x22#8] .release, some .ok, []⟩]) := by decide
/-- V49i, V49j. -/
theorem test_write_bound :
    after State.responses (exec (.write 0x2000#32 0#32 []) (checked bits13)) = some [⟨0x00#8, [], none⟩] ∧
    after State.responses (exec (.write 0x2001#32 0#32 []) (checked bits13)) = some [⟨0x08#8, [], none⟩] := by decide
/-- V57 on the device. -/
theorem test_erase_wraps :
    after (fun t => (t.responses, t.mem)) (exec (.erase 0x1FF#32 2#32) (ready bits9)) =
      some ([⟨0x00#8, [], none⟩], [(0, 0xFF#8), (0x1FF, 0xFF#8)]) := by decide
/-- V52, V81. -/
theorem test_erase_limit :
    after (fun t => (t.responses, t.trace)) (exec (.erase 0#32 256#32) (ready bits13)) =
      some ([⟨0x01#8, [], none⟩], []) ∧
    after State.responses (exec (.erase 0x2000#32 256#32) (checked bits13)) = some [⟨0x01#8, [], none⟩] := by decide
/-- V83. -/
theorem test_reserved :
    after (fun t => (t.responses, t.trace)) (exec .reserved6 (fresh bits9)) = some ([⟨0x01#8, [], none⟩], []) ∧
    after (fun t => (t.responses, t.trace)) (exec .reserved7 (ready bits9)) = some ([⟨0x01#8, [], none⟩], []) := by decide
/-- P5, lines 2 and 3: the stop, and then a request that is not accepted. -/
theorem test_fatal :
    after (fun t => (t.halted, t.responses, t.initialized)) (exec (.read 0#32 0#32) (fatal bits9)) =
      some (true, [], true) ∧
    after (fun t => (t.responses, t.inbox, t.trace))
      (step { fatal bits9 with halted := true, inbox := [.request ⟨3#3, 0#32, 1#32, []⟩] }) = some ([], [], []) := by
  decide
/-- V77, P5 line 5: reset. -/
theorem test_reset :
    after (fun t => (t.initialized, t.halted, t.wel, t.up, t.trace)) (step { fatal bits9 with halted := true, inbox := [.reset] }) =
      some (false, false, true, true, []) := by decide
/-- R226: a call that never returns, and the step after it. -/
theorem test_never :
    after (fun t => (t.position, t.responses, t.cs))
      (exec (.read 0#32 1#32) (scripted bits9 true [never])) =
      some (.waiting (.tx [0x03#8, 0x00#8] .assert), [], true) ∧
    stop (step waitingState) = some (.inl .stuckInTransportCall) := by decide

/-! ### Witnesses -/

theorem witness_decodeOfEncodeIsIdentity :
    Instr.wellFormed .a9 (.readA9 0x1FF#9 1) = true ∧ Instr.wellFormed .a16 (.writeA16 0xFFFF#16 []) = true ∧
    Instr.wellFormed .a24 (.write 0xFFFFFFFF#32 1#32 [0xFF#8]) = true := by decide

theorem witness_decodedInstructionsAreWellFormed :
    decode .a24 (.primitive ⟨[0x03#8, 0xFF#8, 0xFF#8, 0xFF#8], 1⟩) = .ok (.readA24 0xFFFFFF#24 1) := by decide

theorem witness_encodeOfDecodedTransaction :
    decode .a9 (.primitive ⟨[0x82#8, 0xFF#8, 0x00#8], 0⟩) = .ok (.writeA9 0x1FF#9 [0x00#8]) := by decide

/-- R8, one value of ADDR_BITS at each end of each range. -/
theorem witness_modeFollowsAddressWidth :
    bits9.mode = .a9 ∧ bits10.mode = .a16 ∧ bits15.mode = .a16 ∧ bits16.mode = .a24 ∧ bits19.mode = .a24 := by decide

/-- R7: the two ends and what lies beyond them, with the value that is built. -/
theorem test_addressWidths_ends :
    AddrBits.ofNat? 8 = none ∧ AddrBits.ofNat? 9 = some bits9 ∧ AddrBits.ofNat? 19 = some bits19 ∧
    AddrBits.ofNat? 20 = none := by decide

theorem witness_frameCarriesItsAddress :
    (0x1FF#32).toNat ≤ bits9.maxAddr ∧ (0x7FFF#32).toNat ≤ bits15.maxAddr ∧ (0x7FFFF#32).toNat ≤ bits19.maxAddr := by
  decide

theorem witness_hostRequestsDecodeByCode :
    ([0x5A#8] : List Byte).length = (1#32).toNat ∧ ([] : List Byte).length ≠ (1#32).toNat := by decide

/-- A state with one input that decodes. -/
def oneRequest : State := { ready bits9 with inbox := [.request ⟨2#3, 0#32, 0#32, []⟩] }

theorem witness_stepRunsTheDecodedInstruction :
    oneRequest.position = .idle ∧ oneRequest.halted = false ∧
    oneRequest.inbox = .request ⟨2#3, 0#32, 0#32, []⟩ :: [] ∧
    decode oneRequest.mode (.request ⟨2#3, 0#32, 0#32, []⟩) = .ok .isInitialized := by decide

/-- A state with one input that the decoder rejects. -/
def oneBadRequest : State := { ready bits9 with inbox := [.request ⟨4#3, 0#32, 1#32, []⟩] }

theorem witness_undecodableInputIsRefused :
    oneBadRequest.position = .idle ∧ oneBadRequest.halted = false ∧
    oneBadRequest.inbox = .request ⟨4#3, 0#32, 1#32, []⟩ :: [] ∧ (Input.request ⟨4#3, 0#32, 1#32, []⟩ ≠ .reset) ∧
    decode oneBadRequest.mode (.request ⟨4#3, 0#32, 1#32, []⟩) = .error .writeDataLength := by decide

/-- A stopped block with one request. -/
def stoppedBlock : State := { fatal bits9 with halted := true, inbox := [.request ⟨0#3, 0#32, 0#32, []⟩] }

theorem witness_stoppedBlockTakesNoRequest :
    stoppedBlock.position = .idle ∧ stoppedBlock.halted = true ∧
    stoppedBlock.inbox = .request ⟨0#3, 0#32, 0#32, []⟩ :: [] ∧ (Input.request ⟨0#3, 0#32, 0#32, []⟩ ≠ .reset) := by
  decide

/-- A stopped block that is reset. -/
def resetBlock : State := { fatal bits9 with halted := true, inbox := [.reset] }

theorem witness_resetClearsTheBlock : resetBlock.position = .idle ∧ resetBlock.inbox = .reset :: [] := by decide

/-- One waiting state for each clause. -/
theorem witness_waitingBlockIsStuck :
    waitingState.position = .waiting .tinit ∧ waitingState.inbox = [] ∧
    ({ waitingState with inbox := [.reset] } : State).position = .waiting .tinit ∧
    ({ waitingState with inbox := [.request ⟨0#3, 0#32, 0#32, []⟩] } : State).position = .waiting .tinit ∧
    ({ waitingState with inbox := [.primitive ⟨[0x06#8], 0⟩] } : State).position = .waiting .tinit := by decide

/-- What a call came to, and chip-select after it. -/
def answerOf : CallResult → Option (Answer × Bool)
  | .answered a _ t => some (a, t.cs)
  | _ => none

/-- One answered call for each clause: no policy, and each of the three policies, among them a `fail`. -/
theorem witness_chipSelectFollowsPolicy :
    Call.tinit.policy = none ∧ answerOf (transportCall .tinit (fresh bits9)) = some (.ok, false) ∧
    answerOf (transportCall (.tx [0x05#8] .assert) (ready bits9)) = some (.ok, true) ∧
    answerOf (transportCall (.rx 1 .release) { scripted bits9 true [failed] with cs := true, script := [⟨some .fail, [0x00#8]⟩] }) =
      some (.fail, false) ∧
    answerOf (transportCall (.tx [0x06#8] .both) (ready bits9)) = some (.ok, false) := by decide

theorem witness_answeredCallIsRecorded :
    answerOf (transportCall (.tx [0x06#8] .both) (ready bits9)) = some (.ok, false) ∧
    answerOf (transportCall (.rx 2 .release) { scripted bits9 true [okBytes [0xAA#8, 0xBB#8]] with cs := true }) =
      some (.ok, false) := by decide

theorem witness_unansweredCallStopsTheOperation :
    (scripted bits9 true [never]).link = .oracle ∧ ((scripted bits9 true [never]).replyAt 0).answer = none := by decide

theorem witness_readPassesOracleRepliesThrough :
    (scripted bits9 true [failed, okBytes [0xAA#8]]).link = .oracle ∧
    (scripted bits9 true [failed, okBytes [0xAA#8]]).initialized = true ∧ (1#32 ≠ 0#32) ∧
    (0x1FF#32).toNat + (1#32).toNat ≤ (scripted bits9 true [failed, okBytes [0xAA#8]]).arraySize ∧
    (scripted bits9 true [failed, okBytes [0xAA#8]]).script = ⟨some .fail, []⟩ :: ⟨some .ok, [0xAA#8]⟩ :: [] ∧
    ([0xAA#8] : List Byte).length = (1#32).toNat := by decide

/-- The transport serves, on either transport. -/
theorem witness_wrenSendsOneByte : (ready bits9).serves 1 = true ∧ (scripted bits13 false [failed]).serves 1 = true := by
  decide

theorem witness_wrdiSendsOneByte : (ready bits13).serves 1 = true ∧ (scripted bits9 true [failed]).serves 1 = true := by
  decide

theorem witness_rdsrReturnsTheReceivedByte :
    (ready bits16).serves 2 = true ∧ (scripted bits16 false [failed, okay]).serves 2 = true := by decide

/-- One state of each mode, on the device and on the oracle; the device's second byte wraps. -/
theorem witness_wireReadIsOneTransaction :
    ((ready bits9).serves 2 = true ∧ (ready bits9).mode = .a9 ∧ (ready bits9).link = .reference ∧
      txnAddr bits9 (frame .a9 .read 0x1FF#32) 1 = some 0) ∧
    ((ready bits15).serves 2 = true ∧ (ready bits15).mode = .a16) ∧
    ((scripted bits19 true [okay, failed]).serves 2 = true ∧ (scripted bits19 true [okay, failed]).mode = .a24) := by decide

theorem witness_wireWriteIsOneTransaction :
    ((scripted bits9 true [failed, okay]).serves 2 = true ∧ (scripted bits9 true [failed, okay]).mode = .a9) ∧
    ((ready bits10).serves 2 = true ∧ (ready bits10).mode = .a16) ∧
    ((ready bits16).serves 2 = true ∧ (ready bits16).mode = .a24) := by decide

theorem witness_frameOfAnotherModeIsRefused :
    (ready bits10).mode ≠ .a9 ∧ (ready bits9).mode ≠ .a16 ∧ (ready bits15).mode ≠ .a24 := by decide

theorem witness_latchFollowsTheGateOnTheDevice :
    (ready bits9).link = .reference ∧ (ready bits9).up = true ∧ (ready bits9).cs = false := by decide

/-- A device whose latch is clear. -/
def latchClear : State := { ready bits13 with wel := false }

/-- One state of each mode, the latch set and clear; in mode A9 the payload wraps from 0x1FF to 0. -/
theorem witness_wireWriteStoresOnlyWithTheLatch :
    ((ready bits9).mode = .a9 ∧ (ready bits9).link = .reference ∧ (ready bits9).up = true ∧ (ready bits9).cs = false ∧
      Memory.wf (ready bits9).mem = true ∧ (ready bits9).wel = true ∧
      txnAddr bits9 (frame .a9 .write 0x1FF#32) 0 = some 0x1FF ∧ txnAddr bits9 (frame .a9 .write 0x1FF#32) 1 = some 0) ∧
    (latchClear.mode = .a16 ∧ latchClear.link = .reference ∧ latchClear.up = true ∧ latchClear.cs = false ∧
      Memory.wf latchClear.mem = true ∧ latchClear.wel = false) ∧
    ((ready bits19).mode = .a24 ∧ (ready bits19).link = .reference ∧ (ready bits19).wel = true) := by decide

theorem witness_initRunsTheSelfTest :
    ((fresh bits9).initialized = false ∧ (fresh bits9).servesInit = true) ∧
    ((scripted bits17 false [failed, okay, okay, okay]).initialized = false ∧
      (scripted bits17 false [failed, okay, okay, okay]).servesInit = true) := by decide

theorem witness_initWhenReadyDoesNothing : (ready bits9).initialized = true := by decide

theorem witness_deinitAlwaysClearsTheFlag :
    ((ready bits9).initialized = true ∧ (ready bits9).serves 2 = true) ∧
    ((scripted bits9 true [failed, failed]).initialized = true ∧ (scripted bits9 true [failed, failed]).serves 2 = true) := by
  decide

theorem witness_deinitWhenUninitializedDoesNothing : (fresh bits9).initialized = false := by decide

/-- The last byte of the array, on both transports (V42, V47). -/
theorem witness_readMakesExactlyTwoCalls :
    ((ready bits9).initialized = true ∧ (1#32 ≠ 0#32) ∧ (0x1FF#32).toNat + (1#32).toNat ≤ (ready bits9).arraySize ∧
      (ready bits9).serves 2 = true) ∧
    (0x7FFFF#32).toNat + (1#32).toNat ≤ (scripted bits19 true [failed, okay]).arraySize ∧
    (scripted bits19 true [failed, okay]).serves 2 = true := by decide

/-- V40, V38 and V35: one request for each clause. -/
theorem witness_readChecksInOrder :
    (fresh bits13).initialized = false ∧ ((ready bits13).initialized = true ∧ 0#32 = 0#32) ∧
    ((ready bits13).initialized = true ∧ (1#32 ≠ 0#32) ∧ (ready bits13).arraySize < (0x2000#32).toNat + (1#32).toNat) := by
  decide

/-- V49i: accepted at MAX_ADDR + 1 with no byte; V49b: no check. -/
theorem witness_writeMakesAllThreeCalls :
    ((checked bits13).initialized = true ∧
      ((checked bits13).config.writeBoundCheck = true → (0x2000#32).toNat + (0#32).toNat ≤ (checked bits13).arraySize) ∧
      (checked bits13).serves 3 = true) ∧
    ((ready bits13).initialized = true ∧
      ((ready bits13).config.writeBoundCheck = true → (0x1FFF#32).toNat + (2#32).toNat ≤ (ready bits13).arraySize) ∧
      (ready bits13).serves 3 = true) := by decide

/-- V49k, V49j. -/
theorem witness_writeChecksInOrder :
    (fresh bits9).initialized = false ∧
    ((checked bits13).initialized = true ∧ (checked bits13).config.writeBoundCheck = true ∧
      (checked bits13).arraySize < (0x2001#32).toNat + (0#32).toNat) := by decide

/-- V51, V54: the sizes 255 and 0. -/
theorem witness_eraseSendsOnlyFF :
    ((checked bits13).initialized = true ∧ (255#32).toNat < 256 ∧
      ((checked bits13).config.writeBoundCheck = true → (0#32).toNat + (255#32).toNat ≤ (checked bits13).arraySize) ∧
      (checked bits13).serves 3 = true) ∧
    (0#32).toNat < 256 := by decide

/-- V56, V52 and V58: one request for each clause. -/
theorem witness_eraseChecksInOrder :
    (fresh bits9).initialized = false ∧ ((ready bits13).initialized = true ∧ 256 ≤ (256#32).toNat) ∧
    ((checked bits9).initialized = true ∧ (2#32).toNat < 256 ∧ (checked bits9).config.writeBoundCheck = true ∧
      (checked bits9).arraySize < (0x1FF#32).toNat + (2#32).toNat) := by decide

theorem witness_eraseIsAWriteOfFF : (255#32).toNat < 256 := by decide

theorem witness_initSucceedsOnTheDevice :
    (fresh bits9).link = .reference ∧ (fresh bits9).initialized = false ∧ (fresh bits9).cs = false := by decide

theorem ready_readyOnDevice (b : AddrBits) : (ready b).readyOnDevice := ⟨rfl, rfl, rfl, rfl⟩

theorem witness_deinitClosesTheDevice : (ready bits9).readyOnDevice := ready_readyOnDevice bits9

/-- V49b on the device, with a byte already in the array; the addresses of its two bytes are 0x1FFF and 0. -/
theorem witness_writeStoresItsPayload :
    (({ ready bits13 with mem := [(5, 0x77#8)] } : State).readyOnDevice) ∧
    Memory.wf [(5, 0x77#8)] = true ∧
    ((ready bits13).config.writeBoundCheck = true → (0x1FFF#32).toNat + (2#32).toNat ≤ (ready bits13).arraySize) ∧
    txnAddr bits13 (frame bits13.mode .write 0x1FFF#32) 0 = some 0x1FFF ∧
    txnAddr bits13 (frame bits13.mode .write 0x1FFF#32) 1 = some 0 ∧ (1 < 2) ∧
    (∀ k < 2, 1 < k → txnAddr bits13 (frame bits13.mode .write 0x1FFF#32) k ≠ some 0) :=
  ⟨⟨rfl, rfl, rfl, rfl⟩, by decide, by decide, by decide, by decide, by decide, by decide⟩

/-- R62, R64: a payload one byte longer than the 512 bytes of the array reaches its first address again. -/
theorem test_payload_reaches_again :
    txnAddr bits9 (frame .a9 .write 0x005#32) 0 = some 5 ∧ txnAddr bits9 (frame .a9 .write 0x005#32) 512 = some 5 := by
  decide

theorem witness_readReturnsTheArray :
    (ready bits9).readyOnDevice ∧ (2#32 ≠ 0#32) ∧ (0x1FE#32).toNat + (2#32).toNat ≤ (ready bits9).arraySize :=
  ⟨ready_readyOnDevice bits9, by decide, by decide⟩

theorem witness_eraseFillsTheRange :
    (ready bits9).readyOnDevice ∧ Memory.wf (ready bits9).mem = true ∧ (255#32).toNat < 256 ∧
    (0x101#32).toNat + (255#32).toNat ≤ (ready bits9).arraySize :=
  ⟨ready_readyOnDevice bits9, by decide, by decide, by decide⟩

/-- P1's round trip. -/
theorem witness_writeThenReadReturnsTheData :
    (ready bits9).readyOnDevice ∧ Memory.wf (ready bits9).mem = true ∧
    ([0xDE#8, 0xAD#8] : List Byte).length = (2#32).toNat ∧ (2#32 ≠ 0#32) ∧
    (0x1FE#32).toNat + (2#32).toNat ≤ (ready bits9).arraySize :=
  ⟨ready_readyOnDevice bits9, by decide, by decide, by decide, by decide⟩

/-! ### Witnesses of what every step keeps: a step from a state that satisfies the premise -/

/-- The block after reset with an init issued: its step runs the self-test. -/
def initIssued : State := { fresh bits9 with inbox := [.request ⟨0#3, 0#32, 0#32, []⟩] }

theorem initIssued_steps : after State.initialized (step initIssued) = some true := by decide

/-- A block in Ready with a write issued: its step stores a byte. -/
def writeIssued : State := { ready bits9 with inbox := [.request ⟨4#3, 5#32, 1#32, [0x77#8]⟩] }

theorem writeIssued_steps : after State.mem (step writeIssued) = some [(5, 0x77#8)] := by decide

theorem witness_deviceArrayStaysSound :
    writeIssued.arraySound ∧ after State.mem (step writeIssued) = some [(5, 0x77#8)] := ⟨⟨rfl, rfl⟩, writeIssued_steps⟩

theorem witness_chipSelectStaysBracketed :
    initIssued.bracketed ∧ after State.initialized (step initIssued) = some true :=
  ⟨fun _ => ⟨rfl, rfl, rfl⟩, initIssued_steps⟩

theorem witness_onlyListedCallsAreMade :
    initIssued.traceListed ∧ after State.initialized (step initIssued) = some true :=
  ⟨⟨rfl, fun _ => rfl⟩, initIssued_steps⟩

/-- R92, R53: what is no listed transaction. A READ frame and a TX, RDSR and an RX of five bytes, an RX of none, a frame
alone, a TDEINIT inside a transaction. -/
theorem test_tracePhase_rejects :
    tracePhase .a9 [⟨.tx [0x03#8, 0x00#8] .assert, none, []⟩, ⟨.tx [0x00#8] .release, none, []⟩] = none ∧
    tracePhase .a9 [⟨.tx [0x05#8] .assert, none, []⟩, ⟨.rx 5 .release, none, []⟩] = none ∧
    tracePhase .a9 [⟨.tx [0x83#8, 0x00#8] .assert, none, []⟩, ⟨.rx 0 .release, none, []⟩] = none ∧
    tracePhase .a9 [⟨.tx [0x82#8, 0x00#8] .assert, none, []⟩] = some .writing ∧
    tracePhase .a9 [⟨.tx [0x82#8, 0x00#8] .assert, none, []⟩, ⟨.tdeinit, none, []⟩] = none := by decide

theorem witness_responsesStayLegal :
    initIssued.responsesLegal ∧ after State.initialized (step initIssued) = some true :=
  ⟨(by intro _ h; cases h), initIssued_steps⟩

/-- From a state that is not Ready, and from one that has earned it. -/
theorem witness_readyIsEarned :
    (initIssued.readyEarned ∧ after State.initialized (step initIssued) = some true) ∧
    ({ writeIssued with trace := selfTestTrace 0x02#8 } : State).readyEarned :=
  ⟨⟨fun h => (nomatch h), initIssued_steps⟩, fun _ => ⟨[], 0x02#8, [], rfl, rfl, fun _ h => nomatch h⟩⟩

theorem witness_configurationAndAbsentDeviceNeverChange :
    after State.config (step writeIssued) = some ⟨bits9, false, false⟩ ∧
    (scripted bits9 true [okay, okay, okay]).link = .oracle ∧
    after State.responses (exec (.write 5#32 1#32 [0x77#8]) (scripted bits9 true [okay, okay, okay])) =
      some [⟨0x00#8, [], none⟩] := by decide

/-- init and deinit change the flag. -/
theorem witness_onlyLifecycleWritesInitialized :
    ((fresh bits9).initialized = false ∧ after State.initialized (exec .init (fresh bits9)) = some true) ∧
    ((ready bits9).initialized = true ∧ after State.initialized (exec .deinit (ready bits9)) = some false) := by decide

/-- Every check of every instruction that has one, failing under ASSERT_FATAL, and one that none fails. -/
theorem witness_onlyPreconditionsHalt :
    (after State.halted (exec (.read 0#32 0#32) (fatal bits9)) = some true ∧ (fatal bits9).halted = false) ∧
    ((fatal bits9).config.assertFatal = true ∧ (fatal bits9).failsCheck (.read 0#32 0#32) = true ∧
      (fatal bits9).failsCheck (.read 0x1FF#32 2#32) = true ∧ (fatal bits9).failsCheck (.erase 0#32 256#32) = true ∧
      (fatal bits9).failsCheck .reserved6 = true ∧ (fatal bits9).failsCheck .reserved7 = true ∧
      ({ fatal bits9 with initialized := false } : State).failsCheck (.write 0#32 0#32 []) = true ∧
      ({ fatal bits9 with config := ⟨bits9, true, true⟩ } : State).failsCheck (.write 0x200#32 1#32 [0x00#8]) = true ∧
      ({ fatal bits9 with config := ⟨bits9, true, true⟩ } : State).failsCheck (.erase 0x1FF#32 2#32) = true) ∧
    (fatal bits9).failsCheck (.read 0x1FF#32 1#32) = false := by decide

theorem witness_atMostFourCalls : after (fun t => t.trace.length) (exec .init (fresh bits9)) = some 4 := by decide

/-- One request for each clause: an answer, a stop, a call that never returns. -/
theorem witness_completedRequestAnswersOnce :
    decodeRequest ⟨3#3, 0#32, 0#32, []⟩ = .ok (.read 0#32 0#32) ∧
    ((ready bits9).position = .idle ∧ (ready bits9).halted = false ∧
      after (fun t => (t.position, t.halted)) (exec (.read 0#32 0#32) (ready bits9)) = some (.idle, false)) ∧
    ((fatal bits9).position = .idle ∧ (fatal bits9).halted = false ∧
      after State.halted (exec (.read 0#32 0#32) (fatal bits9)) = some true) ∧
    (decodeRequest ⟨0#3, 0#32, 0#32, []⟩ = .ok .init ∧
      after State.position (exec .init (scripted bits9 false [never])) = some (.waiting .tinit)) := by decide

end Sys2Proof.Tests
end

section
/-! The parameters that follow from ADDR_BITS (R8): which widths take each mode, and what the mode then fixes. -/

namespace Sys2Proof

theorem AddrBits.maxAddr_eq (b : AddrBits) : b.maxAddr = 2 ^ b.val - 1 := rfl

theorem AddrBits.mode_of_val_eq_nine {b : AddrBits} (h : b.val = 9) : b.mode = .a9 := if_pos h

theorem AddrBits.mode_of_val_le_fifteen {b : AddrBits} (lo : 10 ≤ b.val) (hi : b.val ≤ 15) : b.mode = .a16 := by
  have hne : b.val ≠ 9 := by omega
  simp [AddrBits.mode, hne, hi]

theorem AddrBits.mode_of_sixteen_le_val {b : AddrBits} (lo : 16 ≤ b.val) : b.mode = .a24 := by
  have hne : b.val ≠ 9 := by omega
  have hhi : ¬ b.val ≤ 15 := by omega
  simp [AddrBits.mode, hne, hhi]

/-- NADDR and FRAME_LEN depend on ADDR_BITS through the mode alone. -/
theorem AddrBits.frame_sizes_of_mode {b : AddrBits} {m : Mode} (h : b.mode = m) :
    b.mode = m ∧ b.mode.addrBytes = m.addrBytes ∧ b.mode.frameLen = 1 + m.addrBytes :=
  h ▸ ⟨rfl, rfl, rfl⟩

/-- Settles O4: each range of ADDR_BITS fixes the mode, and the mode fixes the two lengths. -/
theorem modeFollowsAddressWidth : Obligations.ModeFollowsAddressWidth := by
  intro b
  refine ⟨b.maxAddr_eq, fun h9 => ?_, fun ⟨lo, hi⟩ => ?_, fun ⟨lo, _⟩ => ?_⟩
  · exact AddrBits.frame_sizes_of_mode (AddrBits.mode_of_val_eq_nine h9)
  · exact AddrBits.frame_sizes_of_mode (AddrBits.mode_of_val_le_fifteen lo hi)
  · exact AddrBits.frame_sizes_of_mode (AddrBits.mode_of_sixteen_le_val lo)

end Sys2Proof
end

section
/-! The bytes of a frame bit by bit (R101) and its length by mode (R102). -/

namespace Sys2Proof

/-- Folding leaves every bit below FOLD_BIT of the instruction byte as it was (R72, C3). -/
theorem forceFoldBit_getLsbD_of_lt (code : Byte) (b : Bool) {k : Nat} (hk : k < foldBit) :
    (forceFoldBit code b).getLsbD k = code.getLsbD k := by
  have hk8 : k < 8 := Nat.lt_succ_of_lt hk
  have mask_clear : (1#8 <<< foldBit).getLsbD k = false := by rw [BitVec.getLsbD_shiftLeft]; simp [hk]
  have set_clear : (if b then 1#8 <<< foldBit else 0#8).getLsbD k = false := by
    cases b
    · exact BitVec.getLsbD_zero
    · exact mask_clear
  rw [forceFoldBit, BitVec.getLsbD_or, BitVec.getLsbD_and, BitVec.getLsbD_not, mask_clear, set_clear]
  simp [hk8]

theorem addrLow_getLsbD (addr : Word) {k : Nat} (hk : k < 8) : (addrLow addr).getLsbD k = addr.getLsbD k := by
  simp [addrLow, hk]

theorem addrMid_getLsbD (addr : Word) {k : Nat} (hk : k < 8) : (addrMid addr).getLsbD k = addr.getLsbD (8 + k) := by
  simp [addrMid, hk]

theorem addrHigh_getLsbD (addr : Word) {k : Nat} (hk : k < 8) :
    (addrHigh addr).getLsbD k = addr.getLsbD (16 + k) := by
  simp [addrHigh, hk]

/-- Settles O6: the bytes of a frame are the folded or plain instruction byte and slices of the address. -/
theorem frameBytesFollowMode : Obligations.FrameBytesFollowMode := by
  refine ⟨rfl, rfl, fun i addr => ⟨?_, ?_, ?_⟩⟩
  · refine ⟨forceFoldBit i.code (addr.getLsbD 8), addrLow addr, rfl, forceFoldBit_getLsbD i _, ?_, ?_⟩
    · exact fun k hk => forceFoldBit_getLsbD_of_lt i.code _ hk
    · exact fun k hk => addrLow_getLsbD addr hk
  · exact ⟨addrMid addr, addrLow addr, rfl, fun k hk => ⟨addrMid_getLsbD addr hk, addrLow_getLsbD addr hk⟩⟩
  · exact ⟨addrHigh addr, addrMid addr, addrLow addr, rfl,
      fun k hk => ⟨addrHigh_getLsbD addr hk, addrMid_getLsbD addr hk, addrLow_getLsbD addr hk⟩⟩

/-- Settles O7: a frame has FRAME_LEN bytes, and FRAME_LEN is fixed by the mode. -/
theorem frameLengthIsFixedByMode : Obligations.FrameLengthIsFixedByMode :=
  fun i addr => ⟨frame_length .a9 i addr, frame_length .a16 i addr, frame_length .a24 i addr⟩

end Sys2Proof
end

section
/-! The host operation read (R131, R132): past its three checks it is the READ transaction and the response. -/

namespace Sys2Proof.Machine

/-- A read whose three checks pass goes on with the READ transaction and answers what it returned (R131, R187). -/
theorem exec_read_of_checks {s : State} {addr size : Word} (hinit : s.initialized = true) (hsize : size ≠ 0#32)
    (hbound : addr.toNat + size.toNat ≤ s.arraySize) :
    exec (.read addr size) s = readTransaction addr size.toNat s fun st d t => respond ⟨st, d, none⟩ t := by
  change execRead addr size s = _
  have hpast : s.pastEnd addr size = false := by rw [pastEnd_eq]; exact decide_eq_false (Nat.not_lt.mpr hbound)
  simp [execRead, hinit, hsize, hpast]

/-- A response after transactions that left the array and the latch alone: these changed only the transport's side,
the trace and the level of chip-select. -/
theorem answerHost_of_transactionFrame {s t : State} {items : List TraceItem} (r : Response)
    (hframe : transactionFrame items s t) (hmem : t.mem = s.mem) (hwel : t.wel = s.wel) :
    t.answerHost r = { s with script := (t.answerHost r).script, draws := (t.answerHost r).draws, cs := false,
                              txn := (t.answerHost r).txn, trace := s.trace ++ items,
                              responses := s.responses ++ [r] } := by
  unfold transactionFrame at hframe
  rw [hmem, hwel] at hframe
  rw [hframe]
  rfl

/-- Settles O36: past the checks a read is the READ transaction, whose two calls are made on either transport. -/
theorem readMakesExactlyTwoCalls : Obligations.ReadMakesExactlyTwoCalls := by
  intro s addr size hinit hsize hbound hserves
  obtain ⟨a₁, a₂, d, t, hrun, hlen, hframe, hmem, hwel, -, -⟩ := readTransaction_spec (k := 0) addr size.toNat hserves
  refine ⟨a₁, a₂, d, t.answerHost ⟨tr a₁ ||| tr a₂, d, none⟩, ?_, hlen,
    answerHost_of_transactionFrame _ hframe hmem hwel⟩
  rw [exec_read_of_checks hinit hsize hbound, hrun]
  rfl

end Sys2Proof.Machine
end

section
/-! The host operation write (R141, R145): past its checks it is the gate, the WRITE transaction and the response. -/

namespace Sys2Proof.Machine

/-- The status of a write (R145): OK where all three calls answered `ok`, ERROR_TRANSPORT where any failed. -/
theorem tr_or_three (a₀ a₁ a₂ : Answer) :
    tr a₀ ||| (tr a₁ ||| tr a₂) = if a₀ = .ok ∧ a₁ = .ok ∧ a₂ = .ok then statusOK else statusErrorTransport := by
  cases a₀ <;> cases a₁ <;> cases a₂ <;> rfl

/-- A write that passes its checks goes on with the gate, then the WRITE transaction, then the response (R141, R142). -/
theorem writeOperation_of_checks {s : State} {addr size : Word} (data : List Byte) (hinit : s.initialized = true)
    (hbound : s.config.writeBoundCheck = true → addr.toNat + size.toNat ≤ s.arraySize) :
    writeOperation addr size data s = writeEnable s fun s₀ _ t =>
      writeTransaction addr data t fun st _ u => respond (statusResponse (s₀ ||| st)) u := by
  have hcheck : ¬ (s.config.writeBoundCheck = true ∧ s.pastEnd addr size = true) := fun ⟨hon, hpast⟩ =>
    Nat.not_lt.mpr (hbound hon) (of_decide_eq_true hpast)
  rw [writeOperation, if_neg (by simp [hinit]), if_neg hcheck]

/-- Two groups of calls in a row are one group. -/
theorem transactionFrame_trans {s t u : State} {items items' : List TraceItem} (h₁ : transactionFrame items s t)
    (h₂ : transactionFrame items' t u) : transactionFrame (items ++ items') s u := by
  unfold transactionFrame at *
  rw [h₁] at h₂
  rw [h₂]
  simp

theorem transactionFrame_mode {s t : State} {items : List TraceItem} (h : transactionFrame items s t) :
    t.mode = s.mode := by
  rw [h]; rfl

/-- A response after transactions: beside it, only the transport's side, the trace and the level of chip-select moved. -/
theorem answerHost_of_transactions {s t : State} {items : List TraceItem} (r : Response)
    (hframe : transactionFrame items s t) :
    t.answerHost r = { s with script := (t.answerHost r).script, draws := (t.answerHost r).draws, cs := false,
                              wel := (t.answerHost r).wel, mem := (t.answerHost r).mem, txn := (t.answerHost r).txn,
                              trace := s.trace ++ items, responses := s.responses ++ [r] } := by
  unfold transactionFrame at hframe
  rw [hframe]
  rfl

/-- What a write past its checks comes to on a transport that serves it (R145): the gate's call and the two of the WRITE
transaction, whatever each answers, then one response. -/
theorem writeOperation_spec {s : State} {addr size : Word} (data : List Byte) (hinit : s.initialized = true)
    (hbound : s.config.writeBoundCheck = true → addr.toNat + size.toNat ≤ s.arraySize) (hserves : s.serves 3 = true) :
    ∃ a₀ a₁ a₂ u,
      writeOperation addr size data s = respond (statusResponse (tr a₀ ||| (tr a₁ ||| tr a₂))) u ∧
      transactionFrame [⟨.tx [codeWREN] .both, some a₀, []⟩, ⟨.tx (frame s.mode .write addr) .assert, some a₁, []⟩,
                        ⟨.tx data .release, some a₂, []⟩] s u := by
  obtain ⟨a₀, t, hgate, hgateFrame, -, hrest, -⟩ := writeEnable_spec (k := 2) hserves
  obtain ⟨a₁, a₂, u, hrun, hrunFrame, -⟩ := writeTransaction_spec (k := 0) addr data hrest
  rw [transactionFrame_mode hgateFrame] at hrunFrame
  refine ⟨a₀, a₁, a₂, u, ?_, transactionFrame_trans hgateFrame hrunFrame⟩
  rw [writeOperation_of_checks data hinit hbound, hgate, hrun]

/-- Settles O38: past the checks a write is the gate and the WRITE transaction, whose calls are made whatever the earlier
ones answered; its status is the OR of the three answers. -/
theorem writeMakesAllThreeCalls : Obligations.WriteMakesAllThreeCalls := by
  intro s addr size data hinit hbound hserves
  obtain ⟨a₀, a₁, a₂, u, hrun, hframe⟩ := writeOperation_spec data hinit hbound hserves
  rw [tr_or_three] at hrun
  exact ⟨a₀, a₁, a₂, _, hrun, answerHost_of_transactions _ hframe⟩

end Sys2Proof.Machine
end

section
/-! Decoding and encoding undo each other (R70 to R75, R85, R88): what each part of the decoder accepts, and the two
directions of the round trip. -/

namespace Sys2Proof

/-- A byte that a bare instruction begins with is read as that instruction, in every mode (R71, R81). -/
theorem decode_encode_bare {m : Mode} {i : Instr}
    (h : i ∈ [.wren, .wrdi, .rdsr, .wrsr, .rdid, .sleep, .fstrd, .snr]) : decode m (encode i) = .ok i := by
  simp only [List.mem_cons, List.not_mem_nil, or_false] at h
  rcases h with rfl | rfl | rfl | rfl | rfl | rfl | rfl | rfl <;> rfl

/-- READ and WRITE in format A9 are read back from their frames (R72, R85). -/
theorem decode_encode_a9 (a : BitVec 9) (data : List Byte) {n : Nat} (hn : 0 < n) :
    decode .a9 (encode (.readA9 a n)) = .ok (.readA9 a n) ∧
    decode .a9 (encode (.writeA9 a data)) = .ok (.writeA9 a data) := by
  simp only [decode, encode, frame, List.cons_append, List.nil_append, decodeTransaction_a9, addr9_setWidth]
  simp [decodeRead, decodeWrite, Nat.ne_of_gt hn]

/-- READ and WRITE in format A16 are read back from their frames (R73, R85). -/
theorem decode_encode_a16 (a : BitVec 16) (data : List Byte) {n : Nat} (hn : 0 < n) :
    decode .a16 (encode (.readA16 a n)) = .ok (.readA16 a n) ∧
    decode .a16 (encode (.writeA16 a data)) = .ok (.writeA16 a data) := by
  simp [decode, encode, frame, decodeTransaction_a16, addr16_setWidth, decodeRead, decodeWrite, Nat.ne_of_gt hn]

/-- READ and WRITE in format A24 are read back from their frames (R74, R85). -/
theorem decode_encode_a24 (a : BitVec 24) (data : List Byte) {n : Nat} (hn : 0 < n) :
    decode .a24 (encode (.readA24 a n)) = .ok (.readA24 a n) ∧
    decode .a24 (encode (.writeA24 a data)) = .ok (.writeA24 a data) := by
  simp [decode, encode, frame, decodeTransaction_a24, addr24_setWidth, decodeRead, decodeWrite, Nat.ne_of_gt hn]

/-- Settles O1: by the forms of an instruction; only frames and the payload of a write need the premise. -/
theorem decodeOfEncodeIsIdentity : Obligations.DecodeOfEncodeIsIdentity := by
  intro m i h
  cases i with
  | wren | wrdi | rdsr | wrsr | rdid | sleep | fstrd | snr => exact decode_encode_bare (by simp)
  | readA9 a n =>
    obtain ⟨rfl, hn⟩ : m = .a9 ∧ 0 < n := by simpa [Instr.wellFormed] using h
    exact (decode_encode_a9 a [] hn).1
  | readA16 a n =>
    obtain ⟨rfl, hn⟩ : m = .a16 ∧ 0 < n := by simpa [Instr.wellFormed] using h
    exact (decode_encode_a16 a [] hn).1
  | readA24 a n =>
    obtain ⟨rfl, hn⟩ : m = .a24 ∧ 0 < n := by simpa [Instr.wellFormed] using h
    exact (decode_encode_a24 a [] hn).1
  | writeA9 a data =>
    obtain rfl : m = .a9 := by simpa [Instr.wellFormed] using h
    exact (decode_encode_a9 a data Nat.one_pos).2
  | writeA16 a data =>
    obtain rfl : m = .a16 := by simpa [Instr.wellFormed] using h
    exact (decode_encode_a16 a data Nat.one_pos).2
  | writeA24 a data =>
    obtain rfl : m = .a24 := by simpa [Instr.wellFormed] using h
    exact (decode_encode_a24 a data Nat.one_pos).2
  | init | deinit | isInitialized | read | erase | reserved6 | reserved7 => rfl
  | write a n data =>
    have hlen : data.length = n.toNat := by simpa [Instr.wellFormed] using h
    exact if_pos hlen

theorem decodeBare_eq_ok {i j : Instr} {want rx : Nat} {rest : List Byte} (h : decodeBare i want rest rx = .ok j) :
    rest = [] ∧ rx = want ∧ i = j := by
  unfold decodeBare at h
  split at h
  · cases h
  · split at h
    · cases h
    · exact ⟨not_not.mp ‹_›, not_not.mp ‹_›, Except.ok.inj h⟩

theorem decodeRead_eq_ok {f : Nat → Instr} {j : Instr} {rx : Nat} {rest : List Byte}
    (h : decodeRead f rest rx = .ok j) : rest = [] ∧ 0 < rx ∧ f rx = j := by
  unfold decodeRead at h
  split at h
  · cases h
  · split at h
    · cases h
    · exact ⟨not_not.mp ‹_›, Nat.pos_of_ne_zero ‹_›, Except.ok.inj h⟩

theorem decodeWrite_eq_ok {f : List Byte → Instr} {j : Instr} {rx : Nat} {rest : List Byte}
    (h : decodeWrite f rest rx = .ok j) : rx = 0 ∧ f rest = j := by
  unfold decodeWrite at h
  split at h
  · cases h
  · exact ⟨not_not.mp ‹_›, Except.ok.inj h⟩

/-- `i` is an instruction of mode `m` whose encoding is the transaction `t`. -/
def readsAs (m : Mode) (t : Transaction) (i : Instr) : Prop := i.wellFormed m = true ∧ encode i = .primitive t

theorem readsAs_of_decodeBare {m : Mode} {i j : Instr} {b : Byte} {want rx : Nat} {rest : List Byte}
    (h : decodeBare i want rest rx = .ok j) (hi : readsAs m ⟨[b], want⟩ i) : readsAs m ⟨b :: rest, rx⟩ j := by
  obtain ⟨rfl, rfl, rfl⟩ := decodeBare_eq_ok h
  exact hi

theorem readsAs_of_decodeRead {m : Mode} {f : Nat → Instr} {j : Instr} {rx : Nat} {head rest : List Byte}
    (h : decodeRead f rest rx = .ok j) (hf : ∀ n, 0 < n → readsAs m ⟨head, n⟩ (f n)) :
    readsAs m ⟨head ++ rest, rx⟩ j := by
  obtain ⟨rfl, hrx, rfl⟩ := decodeRead_eq_ok h
  rw [List.append_nil]
  exact hf rx hrx

theorem readsAs_of_decodeWrite {m : Mode} {f : List Byte → Instr} {j : Instr} {rx : Nat} {head rest : List Byte}
    (h : decodeWrite f rest rx = .ok j) (hf : ∀ data, readsAs m ⟨head ++ data, 0⟩ (f data)) :
    readsAs m ⟨head ++ rest, rx⟩ j := by
  obtain ⟨rfl, rfl⟩ := decodeWrite_eq_ok h
  exact hf rest

theorem readsAs_a9 {b₀ : Byte} (b₁ : Byte) :
    (instrPart .a9 b₀ = codeREAD → ∀ n, 0 < n → readsAs .a9 ⟨[b₀, b₁], n⟩ (.readA9 (addr9 b₀ b₁) n)) ∧
    (instrPart .a9 b₀ = codeWRITE → ∀ d, readsAs .a9 ⟨[b₀, b₁] ++ d, 0⟩ (.writeA9 (addr9 b₀ b₁) d)) := by
  refine ⟨fun h n hn => ⟨by simp [Instr.wellFormed, hn], ?_⟩, fun h d => ⟨rfl, ?_⟩⟩
  · rw [encode, frame_addr9 (i := .read) b₁ h]
  · rw [encode, frame_addr9 (i := .write) b₁ h]

theorem readsAs_a16 (b₁ b₂ : Byte) :
    (∀ n, 0 < n → readsAs .a16 ⟨[codeREAD, b₁, b₂], n⟩ (.readA16 (addr16 b₁ b₂) n)) ∧
    (∀ d, readsAs .a16 ⟨[codeWRITE, b₁, b₂] ++ d, 0⟩ (.writeA16 (addr16 b₁ b₂) d)) := by
  refine ⟨fun n hn => ⟨by simp [Instr.wellFormed, hn], ?_⟩, fun d => ⟨rfl, ?_⟩⟩ <;> rw [encode, frame_addr16] <;> rfl

theorem readsAs_a24 (b₁ b₂ b₃ : Byte) :
    (∀ n, 0 < n → readsAs .a24 ⟨[codeREAD, b₁, b₂, b₃], n⟩ (.readA24 (addr24 b₁ b₂ b₃) n)) ∧
    (∀ d, readsAs .a24 ⟨[codeWRITE, b₁, b₂, b₃] ++ d, 0⟩ (.writeA24 (addr24 b₁ b₂ b₃) d)) := by
  refine ⟨fun n hn => ⟨by simp [Instr.wellFormed, hn], ?_⟩, fun d => ⟨rfl, ?_⟩⟩ <;> rw [encode, frame_addr24] <;> rfl

/-- What is accepted as a frame is a READ or a WRITE of the mode, with the bytes it is encoded in (R85). -/
theorem readsAs_of_decodeFrame {m : Mode} {b₀ : Byte} {rest : List Byte} {rx : Nat} {i : Instr}
    (h : decodeFrame m b₀ rest rx = .ok i) : readsAs m ⟨b₀ :: rest, rx⟩ i := by
  unfold decodeFrame at h
  split at h
  case h_1 b₁ more =>
    split at h
    · exact readsAs_of_decodeRead h ((readsAs_a9 b₁).1 ‹_›)
    · split at h
      · exact readsAs_of_decodeWrite h ((readsAs_a9 b₁).2 ‹_›)
      · cases h
  case h_2 b₁ b₂ more =>
    split at h
    · subst b₀; exact readsAs_of_decodeRead h (readsAs_a16 b₁ b₂).1
    · split at h
      · subst b₀; exact readsAs_of_decodeWrite h (readsAs_a16 b₁ b₂).2
      · cases h
  case h_3 b₁ b₂ b₃ more =>
    split at h
    · subst b₀; exact readsAs_of_decodeRead h (readsAs_a24 b₁ b₂ b₃).1
    · split at h
      · subst b₀; exact readsAs_of_decodeWrite h (readsAs_a24 b₁ b₂ b₃).2
      · cases h
  case h_4 => split at h <;> cases h

/-- What is accepted as a transaction is an instruction of the mode, with the bytes it is encoded in. -/
theorem readsAs_of_decodeTransaction {m : Mode} {t : Transaction} {i : Instr} (h : decodeTransaction m t = .ok i) :
    readsAs m t i := by
  obtain ⟨out, rx⟩ := t
  cases out with
  | nil => cases h
  | cons b rest =>
    by_cases hb : b ∈ bareCodes
    · simp only [bareCodes, List.mem_cons, List.not_mem_nil, or_false] at hb
      rcases hb with rfl | rfl | rfl | rfl | rfl | rfl | rfl | rfl <;>
        exact readsAs_of_decodeBare h ⟨rfl, rfl⟩
    · rw [decodeTransaction_frame hb] at h
      exact readsAs_of_decodeFrame h

/-- A host request is accepted only as an operation that every mode has, a write only with `size` bytes (R88). -/
theorem wellFormed_of_decodeRequest (m : Mode) {r : HostRequest} {i : Instr} (h : decodeRequest r = .ok i) :
    i.wellFormed m = true := by
  unfold decodeRequest at h
  split at h
  case h_5 =>
    split at h
    · cases h; exact beq_iff_eq.mpr ‹_›
    · cases h
  all_goals cases h; rfl

/-- Settles O2: by the input; what a transaction decodes to has that transaction as its encoding. -/
theorem decodedInstructionsAreWellFormed : Obligations.DecodedInstructionsAreWellFormed := by
  intro m x i h
  cases x with
  | request r => exact wellFormed_of_decodeRequest m h
  | primitive t => exact (readsAs_of_decodeTransaction h).1
  | reset => cases h

/-- Settles O3: the other half of what the decoder accepts. -/
theorem encodeOfDecodedTransaction : Obligations.EncodeOfDecodedTransaction :=
  fun _ _ _ h => (readsAs_of_decodeTransaction h).2

end Sys2Proof
end

section
/-! The parameter ADDR_BITS as a number (R7), what a frame carries of its address (R89, R105), and the two tables of
codes as the decoder reads them (R81, R88). -/

namespace Sys2Proof

theorem AddrBits.ofNat?_val (b : AddrBits) : AddrBits.ofNat? b.val = some b := dif_pos ⟨b.lo, b.hi⟩

theorem AddrBits.val_of_ofNat? {n : Nat} {b : AddrBits} (h : AddrBits.ofNat? n = some b) : b.val = n := by
  unfold AddrBits.ofNat? at h
  split at h
  · rw [← Option.some.inj h]
  · cases h

/-- Settles O5: the proof that a value carries is what the conversion tests. -/
theorem addressWidthsAreNineToNineteen : Obligations.AddressWidthsAreNineToNineteen := by
  refine fun n => ⟨⟨?_, fun h => ⟨⟨n, h.1, h.2⟩, rfl⟩⟩, fun b => ⟨AddrBits.val_of_ofNat?, ?_⟩⟩
  · rintro ⟨b, rfl⟩
    exact ⟨b.lo, b.hi⟩
  · rintro rfl
    exact b.ofNat?_val

/-- An address up to MAX_ADDR fits in the address bits of a frame. -/
theorem lt_fieldBits_of_le_maxAddr {b : AddrBits} {a : Nat} (h : a ≤ b.maxAddr) : a < 2 ^ b.mode.fieldBits := by
  have hlt : a < b.arraySize := by
    have := arraySize_pos b
    unfold AddrBits.maxAddr at h
    omega
  exact lt_of_lt_of_le hlt (Nat.le_of_dvd (Nat.two_pow_pos _) (arraySize_dvd b))

/-- Settles O8: a frame carries the bits that its format has room for, and an address in range has no others. -/
theorem frameCarriesItsAddress : Obligations.FrameCarriesItsAddress := by
  intro b i addr h
  have haddr := decodeAddr_frame b.mode i addr []
  have hinstr := decodeInstr_frame b.mode i addr []
  rw [List.append_nil] at haddr hinstr
  exact ⟨by rw [haddr, Nat.mod_eq_of_lt (lt_fieldBits_of_le_maxAddr h)], hinstr⟩

/-- Address bits that the format has no room for do not reach the frame (R103). -/
theorem frame_setWidth_fieldBits (m : Mode) (i : FrameInstr) (a : Word) :
    frame m i ((a.setWidth m.fieldBits).setWidth 32) = frame m i a := by
  cases m with
  | a9 =>
    have h := frame_addr9 (addrLow a) (instrPart_folded i (a.getLsbD 8))
    rw [addr9_frame] at h
    exact h
  | a16 =>
    have h := frame_addr16 i (addrMid a) (addrLow a)
    rw [addr16_frame] at h
    exact h
  | a24 =>
    have h := frame_addr24 i (addrHigh a) (addrMid a) (addrLow a)
    rw [addr24_frame] at h
    exact h

/-- Settles O9: a frame gives back the field bits of its address, and is made of them alone. -/
theorem framesAgreeExactlyOnFieldBits : Obligations.FramesAgreeExactlyOnFieldBits := by
  refine fun m i a a' => ⟨fun h => ?_, fun h => ?_⟩
  · have hdecode := congrArg (decodeAddr m) h
    have ha := decodeAddr_frame m i a []
    have ha' := decodeAddr_frame m i a' []
    rw [List.append_nil] at ha ha'
    rw [ha, ha'] at hdecode
    exact Option.some.inj hdecode
  · have hbits : a.setWidth m.fieldBits = a'.setWidth m.fieldBits :=
      BitVec.eq_of_toNat_eq (by rw [BitVec.toNat_setWidth, BitVec.toNat_setWidth, h])
    rw [← frame_setWidth_fieldBits m i a, hbits, frame_setWidth_fieldBits]

/-- Settles O10: the code alone tells the operation, but for the length of a write's payload. -/
theorem hostRequestsDecodeByCode : Obligations.HostRequestsDecodeByCode :=
  fun _ _ _ _ => ⟨rfl, rfl, rfl, rfl, fun h => if_pos h, fun h => if_neg h, rfl, rfl, rfl⟩

/-- Settles O11, by evaluation of the decoder. -/
theorem sampleWordsDecode : Obligations.SampleWordsDecode := by
  unfold Obligations.SampleWordsDecode
  decide

end Sys2Proof
end

section
/-! The step by the position of the block and its next input (R21, R23, R210, R220, R226), and the state after reset
(R31). -/

namespace Sys2Proof.Machine

theorem accept_of_halted {s : State} (x : Input) (h : s.halted = true) : accept x s = .done s := if_pos h

theorem accept_of_decode {s : State} {x : Input} {i : Instr} (h : s.halted = false) (hd : decode s.mode x = .ok i) :
    accept x s = .run i s := by
  simp [accept, h, hd]

theorem accept_of_error {s : State} {x : Input} {e : DecodeError} (h : s.halted = false)
    (hd : decode s.mode x = .error e) : accept x s = .refused (.undecodable e) := by
  simp [accept, h, hd]

/-- The decoder accepts no reset (R210). -/
theorem ne_reset_of_decode {m : Mode} {x : Input} {i : Instr} (h : decode m x = .ok i) : x ≠ .reset := by
  rintro rfl
  cases h

/-- Settles O12: such an input is fetched, accepted and run. -/
theorem stepRunsTheDecodedInstruction : Obligations.StepRunsTheDecodedInstruction := by
  intro s x rest i hp hh hi hd
  refine ⟨decodedInstructionsAreWellFormed _ _ _ hd, ?_⟩
  rw [step, fetch_input hp hi (ne_reset_of_decode hd), accept_of_decode (s := s.withInbox rest) hh hd]
  rfl

/-- Settles O13: such an input is fetched, and refused where it is decoded. -/
theorem undecodableInputIsRefused : Obligations.UndecodableInputIsRefused := by
  intro s x rest e hp hh hi hx hd
  rw [step, fetch_input hp hi hx, accept_of_error (s := s.withInbox rest) hh hd]

/-- Settles O14: such an input is fetched and dropped. -/
theorem stoppedBlockTakesNoRequest : Obligations.StoppedBlockTakesNoRequest := by
  intro s x rest hp hh hi hx
  rw [step, fetch_input hp hi hx, accept_of_halted (s := s.withInbox rest) x hh]
  rfl

/-- Settles O15: a reset is fetched before anything is accepted. -/
theorem resetClearsTheBlock : Obligations.ResetClearsTheBlock := by
  intro s rest hp hi
  rw [step, fetch_reset hp hi]
  rfl

/-- Settles O16: the inbox after reset is empty. -/
theorem resetLeavesAnIdleBlock : Obligations.ResetLeavesAnIdleBlock := by
  refine ⟨rfl, fun c => ⟨rfl, rfl, rfl, rfl, rfl, rfl, ?_⟩⟩
  rw [step, fetch_empty rfl rfl]

/-- Settles O17: whatever the inbox holds, the waiting block only looks at its first input. -/
theorem waitingBlockIsStuck : Obligations.WaitingBlockIsStuck := by
  intro s c hp
  rw [step, fetch_waiting hp]
  refine ⟨fun hi => ?_, fun rest hi => ?_, fun r rest hi => ?_, fun t rest hi => ?_⟩ <;> rw [hi] <;> rfl

/-- Settles O50: after reset nothing was called, answered or stored, and the block is not Ready. -/
theorem invariantsHoldAtReset : Obligations.InvariantsHoldAtReset := fun c =>
  ⟨⟨reset_mem_wf c, rfl⟩, fun _ => ⟨rfl, rfl, rfl⟩, ⟨rfl, fun _ => rfl⟩, fun _ hr => (nomatch hr), fun h => (nomatch h)⟩

end Sys2Proof.Machine
end

section
/-! What a run of answered calls does to each part of the state, and what each end of an instruction adds to it: the
parts from which the invariants below are put together. -/

namespace Sys2Proof.Machine

variable {W : Prop} {i : Instr} {s t : State} {n : Nat} {l : Bool} {p : Phase}

theorem Ran.config (h : Ran W s t n l p) : t.config = s.config := by rw [h.frame]
theorem Ran.initialized (h : Ran W s t n l p) : t.initialized = s.initialized := by rw [h.frame]
theorem Ran.halted (h : Ran W s t n l p) : t.halted = s.halted := by rw [h.frame]
theorem Ran.position (h : Ran W s t n l p) : t.position = s.position := by rw [h.frame]
theorem Ran.responses (h : Ran W s t n l p) : t.responses = s.responses := by rw [h.frame]
theorem Ran.link (h : Ran W s t n l p) : t.link = s.link := by rw [h.frame]

/-- The calls of a run stand in the trace behind what was there, one entry each, and none of them is TDEINIT. -/
theorem Ran.trace (h : Ran W s t n l p) :
    ∃ items : List TraceItem, t.trace = s.trace ++ items ∧ items.length = n ∧ ∀ e ∈ items, e.call ≠ .tdeinit := by
  induction h with
  | start => exact ⟨[], by simp⟩
  | @call _ _ _ _ _ _ _ c a bs _ _ hc _ hcall ih =>
    obtain ⟨items, htrace, hlen, hitems⟩ := ih
    refine ⟨items ++ [⟨c, some a, bs⟩], ?_, by simp [hlen], ?_⟩
    · rw [(transportCall_answered hcall).1, htrace, List.append_assoc]
    · simpa [or_imp, forall_and, hc] using hitems

theorem trace_of_answered {c : Call} {a : Answer} {bs : List Byte} (h : transportCall c s = .answered a bs t) :
    t.trace = s.trace ++ [⟨c, some a, bs⟩] := by
  rw [(transportCall_answered h).1]

theorem trace_of_hung {c : Call} (h : transportCall c s = .hung t) : t.trace = s.trace ++ [⟨c, none, []⟩] := by
  rw [transportCall_hung h]

/-- `t` is `s` but for the block's two bits and what the block gives back. -/
def blockFrame (s t : State) : Prop :=
  t = { s with initialized := t.initialized, halted := t.halted, responses := t.responses, primResult := t.primResult }

theorem blockFrame.trace (h : blockFrame s t) : t.trace = s.trace := by rw [h]
theorem blockFrame.cs (h : blockFrame s t) : t.cs = s.cs := by rw [h]
theorem blockFrame.txn (h : blockFrame s t) : t.txn = s.txn := by rw [h]
theorem blockFrame.mem (h : blockFrame s t) : t.mem = s.mem := by rw [h]
theorem blockFrame.wel (h : blockFrame s t) : t.wel = s.wel := by rw [h]
theorem blockFrame.config (h : blockFrame s t) : t.config = s.config := by rw [h]
theorem blockFrame.link (h : blockFrame s t) : t.link = s.link := by rw [h]

/-- What an instruction's end means for all but the block itself: whole transactions were made, or these and a TDEINIT,
or a call was made that never returns. -/
theorem Ends.outside {W : Prop} {i : Instr} {s t : State} (h : Ends W i s t) :
    (∃ u n, Ran W s u n false .closed ∧ n ≤ 4 ∧ blockFrame u t) ∨
    (∃ u v n a, Ran W s u n false .closed ∧ n ≤ 3 ∧ transportCall .tdeinit u = .answered a [] v ∧ blockFrame v t) ∨
    (∃ u n l l' p p' c, Ran W s u n l p ∧ n ≤ 3 ∧ (W → phaseStep s.mode p c = some p') ∧
      bracketStep (some l) c = some l' ∧ transportCall c u = .hung t) := by
  cases h with
  | responded r hr hn _ ht => exact .inl ⟨_, _, hr, hn, by rw [ht]; rfl⟩
  | hung c hr hn hp hb hcall => exact .inr (.inr ⟨_, _, _, _, _, _, c, hr, hn, hp, hb, hcall⟩)
  | stopped _ _ ht => exact .inl ⟨s, 0, .start, Nat.zero_le 4, by rw [ht]; rfl⟩
  | returned r hr hn _ ht => exact .inl ⟨_, _, hr, hn, by rw [ht]; rfl⟩
  | ready b hr hn _ _ _ ht => exact .inl ⟨_, _, hr, hn, by rw [ht]; rfl⟩
  | closed a r hr hn _ hcall _ ht => exact .inr (.inl ⟨_, _, _, a, hr, hn, hcall, by rw [ht]; rfl⟩)

/-- Settles O59: an instruction ends after its run, or with one more call after at most three. -/
theorem atMostFourCalls : Obligations.AtMostFourCalls := by
  intro i s t h
  obtain ⟨u, n, hr, hn, ht⟩ | ⟨u, v, n, a, hr, hn, hcall, ht⟩ | ⟨u, n, _, _, _, _, c, hr, hn, -, -, hcall⟩ :=
    (exec_ends i s t h).outside <;> obtain ⟨items, htrace, hlen, -⟩ := hr.trace
  · exact ⟨items, ht.trace.trans htrace, by omega⟩
  · refine ⟨items ++ [⟨.tdeinit, some a, []⟩], ?_, by simp; omega⟩
    rw [ht.trace, trace_of_answered hcall, htrace, List.append_assoc]
  · refine ⟨items ++ [⟨c, none, []⟩], ?_, by simp; omega⟩
    rw [trace_of_hung hcall, htrace, List.append_assoc]

end Sys2Proof.Machine
end

section
/-! The invariants about what lies outside the block: the device array (R40), the level of chip-select (R52) and the
order of the calls (R53, R92). -/

namespace Sys2Proof.Machine

variable {W : Prop} {i : Instr} {s t u : State} {n : Nat} {l l' : Bool} {p p' : Phase} {c : Call} {a : Answer}
  {bs : List Byte}

/-! ### The array -/

theorem arraySound_of_answered (h : transportCall c s = .answered a bs t) (hs : s.arraySound) : t.arraySound := by
  obtain ⟨-, -, -, hsound, -⟩ := transportCall_answered h
  exact hsound hs

theorem Ran.arraySound (h : Ran W s t n l p) (hs : s.arraySound) : t.arraySound := by
  induction h with
  | start => exact hs
  | call _ _ _ _ hcall ih => exact arraySound_of_answered hcall ih

theorem blockFrame.arraySound (h : blockFrame s t) (hs : s.arraySound) : t.arraySound := by
  rw [h]; exact hs

theorem arraySound_of_hung (h : transportCall c s = .hung t) (hs : s.arraySound) : t.arraySound := by
  rw [transportCall_hung h]; exact hs

/-- Settles O51: every call keeps the array sound, and nothing else writes it. -/
theorem deviceArrayStaysSound : Obligations.DeviceArrayStaysSound := by
  intro s t hs
  refine step_keeps (fun _ _ h => h) (fun _ h _ => h) (fun s i x hs _ _ t h => ?_) hs
  obtain ⟨u, n, hr, -, ht⟩ | ⟨u, v, n, a, hr, -, hcall, ht⟩ | ⟨u, n, _, _, _, _, c, hr, -, -, -, hcall⟩ :=
    (exec_ends i s t h).outside
  · exact ht.arraySound (hr.arraySound hs)
  · exact ht.arraySound (arraySound_of_answered hcall (hr.arraySound hs))
  · exact arraySound_of_hung hcall (hr.arraySound hs)

/-! ### Chip-select -/

theorem bracketLevel_append (l : List TraceItem) (e : TraceItem) :
    bracketLevel (l ++ [e]) = bracketStep (bracketLevel l) e.call := by
  simp [bracketLevel]

/-- Between two calls of an operation: chip-select stands at `l`, the trace accounts for it, and with chip-select
released (or with no device there) no transaction is open. -/
def State.atLevel (s : State) (l : Bool) : Prop :=
  s.cs = l ∧ (s.link = .oracle ∨ l = false → s.txn = []) ∧ bracketLevel s.trace = some l

theorem bracketed_iff_atLevel (h : s.position = .idle) : s.bracketed ↔ s.atLevel false := by
  simp [State.bracketed, State.atLevel, h]

/-- The level that the bracketing law gives a call is where the call leaves chip-select (R51, R52). -/
theorem csAtExit_of_bracketStep (h : bracketStep (some l) c = some l') : csAtExit c (csAtEntry c l) = l' := by
  rw [csAt_of_policy]
  unfold bracketStep at h
  cases hp : c.policy with
  | none => cases l <;> simp_all
  | some q => cases l <;> cases q <;> simp_all

/-- A call that ends with chip-select released has a policy that releases it, or moves no bytes at level released. -/
theorem releases_of_bracketStep (h : bracketStep (some l) c = some false) :
    (c.policy = none ∧ l = false) ∨ ∃ q, c.policy = some q ∧ q.releases = true := by
  unfold bracketStep at h
  cases hp : c.policy with
  | none => cases l <;> simp_all
  | some q => cases l <;> cases q <;> simp_all [Policy.releases]

theorem atLevel_of_answered (hb : bracketStep (some l) c = some l') (h : transportCall c s = .answered a bs t)
    (hs : s.atLevel l) : t.atLevel l' := by
  obtain ⟨hcs, htxn, htrace⟩ := hs
  obtain ⟨hframe, hexit, -, -, horacle, hreference, hnone⟩ := transportCall_answered h
  refine ⟨?_, fun hl => ?_, ?_⟩
  · rw [hexit, hcs, csAtExit_of_bracketStep hb]
  · have hlink : t.link = s.link := by rw [hframe]
    obtain hl' | hl' := link_cases s
    · rw [horacle hl', htxn (.inl hl')]
    · obtain rfl : l' = false := hl.resolve_left (by rw [hlink, hl']; decide)
      obtain ⟨hp, rfl⟩ | ⟨q, hp, hq⟩ := releases_of_bracketStep hb
      · rw [hnone hp, htxn (.inr rfl)]
      · exact hreference hl' q hp hq
  · rw [trace_of_answered h, bracketLevel_append, htrace, hb]

theorem Ran.atLevel (h : Ran W s t n l p) (hs : s.atLevel false) : t.atLevel l := by
  induction h with
  | start => exact hs
  | call _ _ _ hb hcall ih => exact atLevel_of_answered hb hcall ih

theorem blockFrame.bracketed (h : blockFrame s t) (hs : s.atLevel false) : t.bracketed := by
  obtain ⟨hcs, htxn, htrace⟩ := hs
  exact fun _ => ⟨h.cs.trans hcs, h.txn.trans (htxn (.inr rfl)), by rw [h.trace, htrace]⟩

/-- Settles O52: every call of an operation moves the level as the bracketing law says, and an operation that ends does
so with chip-select released. -/
theorem chipSelectStaysBracketed : Obligations.ChipSelectStaysBracketed := by
  intro s t hs
  refine step_keeps (fun _ _ h => h) (fun _ h _ => h) (fun s i x hs hp _ t h => ?_) hs
  have hlevel := (bracketed_iff_atLevel hp).mp hs
  obtain ⟨u, n, hr, -, ht⟩ | ⟨u, v, n, a, hr, -, hcall, ht⟩ | ⟨u, n, _, _, _, _, c, hr, -, -, -, hcall⟩ :=
    (exec_ends i s t h).outside
  · exact ht.bracketed (hr.atLevel hlevel)
  · exact ht.bracketed (atLevel_of_answered rfl hcall (hr.atLevel hlevel))
  · intro hidle
    rw [transportCall_hung hcall] at hidle
    cases hidle

/-! ### The order of the calls -/

theorem tracePhase_append (m : Mode) (l : List TraceItem) (e : TraceItem) :
    tracePhase m (l ++ [e]) = (tracePhase m l).bind fun p => phaseStep m p e.call := by
  simp [tracePhase]

/-- A run whose calls are listed leaves the trace in its phase. -/
theorem Ran.phase (h : Ran W s t n l p) (w : W) (hs : tracePhase s.mode s.trace = some .closed) :
    tracePhase s.mode t.trace = some p := by
  induction h with
  | start => exact hs
  | call _ hp _ _ hcall ih => rw [trace_of_answered hcall, tracePhase_append, ih, Option.bind_some, hp w]

theorem traceListed_of_closed (hc : t.config = s.config) (h : tracePhase s.mode t.trace = some .closed) :
    t.traceListed := by
  have hm : t.mode = s.mode := by rw [State.mode, hc]; rfl
  exact ⟨by rw [hm, h]; rfl, fun _ => by rw [hm, h]⟩

/-- Settles O53: the calls of a decoded instruction are the beginning of listed transactions, and all of it where the
instruction ends. -/
theorem onlyListedCallsAreMade : Obligations.OnlyListedCallsAreMade := by
  intro s t hs
  refine step_keeps (fun _ _ h => h) (fun _ h _ => h) (fun s i x hs hidle hd t h => ?_) hs
  have w := decodedInstructionsAreWellFormed _ _ _ hd
  have hclosed := hs.2 hidle
  obtain ⟨u, n, hr, -, ht⟩ | ⟨u, v, n, a, hr, -, hcall, ht⟩ | ⟨u, n, _, _, _, _, c, hr, -, hp, -, hcall⟩ :=
    (exec_ends i s t h).outside
  · refine traceListed_of_closed (ht.config.trans hr.config) ?_
    rw [ht.trace, hr.phase w hclosed]
  · have hv : v.config = u.config := by rw [(transportCall_answered hcall).1]
    refine traceListed_of_closed (ht.config.trans (hv.trans hr.config)) ?_
    rw [ht.trace, trace_of_answered hcall, tracePhase_append, hr.phase w hclosed]
    rfl
  · have hm : t.mode = s.mode := by rw [transportCall_hung hcall]; exact hr.mode
    refine ⟨?_, fun hi => ?_⟩
    · rw [hm, trace_of_hung hcall, tracePhase_append, hr.phase w hclosed, Option.bind_some, hp w]
      rfl
    · rw [transportCall_hung hcall] at hi
      cases hi

end Sys2Proof.Machine
end

section
/-! What the steps keep of the block itself: legal responses (R86, R188), an earned Ready (R33), the constants (R24),
the two bits (R22, R23), and one response for each request that ends (R234). -/

namespace Sys2Proof.Machine

variable {W : Prop} {i : Instr} {s t u : State} {n : Nat} {l : Bool} {p : Phase} {c : Call} {a : Answer}
  {bs : List Byte}

theorem responses_of_answered (h : transportCall c s = .answered a bs t) : t.responses = s.responses := by
  rw [(transportCall_answered h).1]

theorem responses_of_hung (h : transportCall c s = .hung t) : t.responses = s.responses := by
  rw [transportCall_hung h]

/-! ### Responses -/

theorem responsesLegal_of_append {r : Response} (hs : s.responsesLegal) (hr : statusLegal r.status = true)
    (ht : t.responses = s.responses ++ [r]) : t.responsesLegal := by
  intro x hx
  rw [ht, List.mem_append, List.mem_singleton] at hx
  obtain hx | rfl := hx
  · exact hs x hx
  · exact hr

theorem responsesLegal_of_eq (hs : s.responsesLegal) (ht : t.responses = s.responses) : t.responsesLegal := by
  intro x hx
  exact hs x (ht ▸ hx)

/-- Settles O54: each end of an instruction gives one response of a legal status, or none. -/
theorem responsesStayLegal : Obligations.ResponsesStayLegal := by
  intro s t hs
  refine step_keeps (fun _ _ h => h) (fun _ h _ => h) (fun s i x hs _ _ t h => ?_) hs
  cases exec_ends i s t h with
  | responded r hr _ hlegal ht => exact responsesLegal_of_append hs hlegal (by rw [ht, ← hr.responses]; rfl)
  | hung c hr _ _ _ hcall => exact responsesLegal_of_eq hs ((responses_of_hung hcall).trans hr.responses)
  | stopped _ _ ht => exact responsesLegal_of_eq hs (by rw [ht]; rfl)
  | returned r hr _ _ ht => exact responsesLegal_of_eq hs (by rw [ht]; exact hr.responses)
  | ready b hr _ _ _ _ ht =>
    exact responsesLegal_of_append (r := statusResponse statusOK) hs rfl (by rw [ht, ← hr.responses]; rfl)
  | closed a r hr _ _ hcall hlegal ht =>
    exact responsesLegal_of_append hs hlegal (by rw [ht, ← hr.responses, ← responses_of_answered hcall]; rfl)

/-! ### Ready -/

/-- An earned Ready stays earned while no TDEINIT completes. -/
theorem readyEarned_of_append {items : List TraceItem} (hs : s.readyEarned) (hi : t.initialized = s.initialized)
    (ht : t.trace = s.trace ++ items) (hitems : ∀ e ∈ items, e.call = .tdeinit → e.answer = none) : t.readyEarned := by
  intro hready
  obtain ⟨before, b, after, htrace, hwel, hafter⟩ := hs (hi ▸ hready)
  refine ⟨before, b, after ++ items, by rw [ht, htrace, List.append_assoc], hwel, fun e he => ?_⟩
  exact (List.mem_append.mp he).elim (hafter e) (hitems e)

theorem Ran.readyEarned (h : Ran W s u n l p) (hs : s.readyEarned) (hi : t.initialized = u.initialized)
    (ht : t.trace = u.trace) : t.readyEarned := by
  obtain ⟨items, htrace, -, hitems⟩ := h.trace
  exact readyEarned_of_append hs (hi.trans h.initialized) (ht.trans htrace) fun e he hd => absurd hd (hitems e he)

theorem readyEarned_of_hung (h : transportCall c s = .hung t) (hs : s.readyEarned) : t.readyEarned :=
  readyEarned_of_append hs (by rw [transportCall_hung h]) (trace_of_hung h) (by simp)

/-- Settles O55: only a passed self-test sets the bit, and a TDEINIT that completes clears it. -/
theorem readyIsEarned : Obligations.ReadyIsEarned := by
  intro s t hs
  refine step_keeps (fun _ _ h => h) (fun s _ _ h => nomatch h) (fun s i x hs _ _ t h => ?_) hs
  cases exec_ends i s t h with
  | responded r hr _ _ ht => exact hr.readyEarned hs (by rw [ht]; rfl) (by rw [ht]; rfl)
  | hung c hr _ _ _ hcall => exact readyEarned_of_hung hcall (hr.readyEarned hs rfl rfl)
  | stopped _ _ ht => subst ht; exact hs
  | returned r hr _ _ ht => exact hr.readyEarned hs (by rw [ht]; rfl) (by rw [ht]; rfl)
  | ready b hr _ _ htrace hwel ht =>
    exact fun _ => ⟨s.trace, b, [], by rw [ht, List.append_nil]; exact htrace, hwel, fun _ he => nomatch he⟩
  | closed a r hr _ _ hcall _ ht =>
    intro hready
    rw [ht] at hready
    exact nomatch hready

/-! ### The constants and the absent device -/

theorem constants_of_answered (h : transportCall c s = .answered a bs t) : t.config = s.config ∧ t.link = s.link := by
  rw [(transportCall_answered h).1]
  exact ⟨rfl, rfl⟩

theorem constants_of_hung (h : transportCall c s = .hung t) : t.config = s.config ∧ t.link = s.link := by
  rw [transportCall_hung h]
  exact ⟨rfl, rfl⟩

/-- No instruction changes the configuration or the transport (R24). -/
theorem exec_keeps_constants (h : exec i s = .next t) : t.config = s.config ∧ t.link = s.link := by
  obtain ⟨u, n, hr, -, ht⟩ | ⟨u, v, n, a, hr, -, hcall, ht⟩ | ⟨u, n, _, _, _, _, c, hr, -, -, -, hcall⟩ :=
    (exec_ends i s t h).outside
  · exact ⟨ht.config.trans hr.config, ht.link.trans hr.link⟩
  · obtain ⟨hc, hl⟩ := constants_of_answered hcall
    exact ⟨ht.config.trans (hc.trans hr.config), ht.link.trans (hl.trans hr.link)⟩
  · obtain ⟨hc, hl⟩ := constants_of_hung hcall
    exact ⟨hc.trans hr.config, hl.trans hr.link⟩

/-- `t` has the reference device of `s`, which nothing has touched. -/
def deviceUntouched (s t : State) : Prop := t.mem = s.mem ∧ t.wel = s.wel ∧ t.txn = s.txn

theorem deviceUntouched_of_answered (hl : s.link = .oracle) (h : transportCall c s = .answered a bs t)
    (hu : deviceUntouched u s) : deviceUntouched u t := by
  obtain ⟨hmem, hwel, htxn, -⟩ := oracle_keeps_device hl h
  obtain ⟨hmem', hwel', htxn'⟩ := hu
  exact ⟨hmem.trans hmem', hwel.trans hwel', htxn.trans htxn'⟩

theorem Ran.deviceUntouched (h : Ran W s t n l p) (hl : s.link = .oracle) : deviceUntouched s t := by
  induction h with
  | start => exact ⟨rfl, rfl, rfl⟩
  | call hr _ _ _ hcall ih => exact deviceUntouched_of_answered (hr.link.trans hl) hcall ih

theorem blockFrame.deviceUntouched (h : blockFrame u t) (hu : deviceUntouched s u) : deviceUntouched s t := by
  rw [h]; exact hu

/-- Settles O56: by what each call leaves alone, on either transport and on the oracle. -/
theorem configurationAndAbsentDeviceNeverChange : Obligations.ConfigurationAndAbsentDeviceNeverChange := by
  refine ⟨fun s t => ?_, fun i s t h hl => ?_⟩
  · refine step_keeps (P := fun u => u.config = s.config ∧ u.link = s.link) (fun _ _ h => h) (fun _ h _ => h)
      (fun u i x hu _ _ t h => ?_) ⟨rfl, rfl⟩
    obtain ⟨hc, hk⟩ := exec_keeps_constants h
    exact ⟨hc.trans hu.1, hk.trans hu.2⟩
  · obtain ⟨u, n, hr, -, ht⟩ | ⟨u, v, n, a, hr, -, hcall, ht⟩ | ⟨u, n, _, _, _, _, c, hr, -, -, -, hcall⟩ :=
      (exec_ends i s t h).outside
    · exact ht.deviceUntouched (hr.deviceUntouched hl)
    · exact ht.deviceUntouched (deviceUntouched_of_answered (hr.link.trans hl) hcall (hr.deviceUntouched hl))
    · rw [transportCall_hung hcall]
      exact hr.deviceUntouched hl

/-! ### The two bits -/

theorem bits_of_answered (h : transportCall c s = .answered a bs t) :
    t.initialized = s.initialized ∧ t.halted = s.halted ∧ t.position = s.position := by
  rw [(transportCall_answered h).1]
  exact ⟨rfl, rfl, rfl⟩

theorem bits_of_hung (h : transportCall c s = .hung t) :
    t.initialized = s.initialized ∧ t.halted = s.halted ∧ t.position = .waiting c := by
  rw [transportCall_hung h]
  exact ⟨rfl, rfl, rfl⟩

/-- Settles O57: the ends at which the bit changes are the passed self-test and the completed deinit. -/
theorem onlyLifecycleWritesInitialized : Obligations.OnlyLifecycleWritesInitialized := by
  intro i s t h hne
  cases exec_ends i s t h with
  | responded r hr _ _ ht => exact absurd (by rw [ht]; exact hr.initialized) hne
  | hung c hr _ _ _ hcall => exact absurd ((bits_of_hung hcall).1.trans hr.initialized) hne
  | stopped _ _ ht => exact absurd (by rw [ht]; rfl) hne
  | returned r hr _ _ ht => exact absurd (by rw [ht]; exact hr.initialized) hne
  | ready b _ _ hi _ _ ht => exact .inl ⟨hi, by rw [ht]; rfl⟩
  | closed a r _ _ hi _ _ ht => exact .inr ⟨hi, by rw [ht]; rfl⟩

/-- An end other than the stop leaves `halted` alone; the stop sets it and does nothing else (R184). -/
theorem Ends.halted (h : Ends W i s t) :
    t.halted = s.halted ∨ (s.config.assertFatal = true ∧ s.failsCheck i = true ∧ t = s.halt) := by
  cases h with
  | responded r hr _ _ ht => exact .inl (by rw [ht]; exact hr.halted)
  | hung c hr _ _ _ hcall => exact .inl ((bits_of_hung hcall).2.1.trans hr.halted)
  | stopped ha hf ht => exact .inr ⟨ha, hf, ht⟩
  | returned r hr _ _ ht => exact .inl (by rw [ht]; exact hr.halted)
  | ready b hr _ _ _ _ ht => exact .inl (by rw [ht]; exact hr.halted)
  | closed a r hr _ _ hcall _ ht => exact .inl (by rw [ht]; exact (bits_of_answered hcall).2.1.trans hr.halted)

/-- A write whose checks fail raises one of their codes (R141). -/
theorem writeOperation_of_failsCheck {addr size : Word} {data : List Byte}
    (h : s.initialized = false ∨ s.config.writeBoundCheck = true ∧ s.arraySize < addr.toNat + size.toNat) :
    ∃ code, writeOperation addr size data s = raisePrecond code s := by
  unfold writeOperation
  split
  · exact ⟨_, rfl⟩
  · have hbound := h.resolve_left ‹_›
    exact ⟨_, if_pos ⟨hbound.1, decide_eq_true hbound.2⟩⟩

/-- An instruction that fails a check of its own raises a precondition failure (R131, R141, R151, R185). -/
theorem exec_of_failsCheck (h : s.failsCheck i = true) : ∃ code, exec i s = raisePrecond code s := by
  cases i with
  | read addr size =>
    change ∃ code, execRead addr size s = _
    unfold execRead
    split
    · exact ⟨_, rfl⟩
    · split
      · exact ⟨_, rfl⟩
      · have hpast : s.pastEnd addr size = true := by simp_all [State.failsCheck, pastEnd_eq]
        exact ⟨_, if_pos hpast⟩
  | write addr size data => exact writeOperation_of_failsCheck (by simpa [State.failsCheck] using h)
  | erase addr size =>
    change ∃ code, execErase addr size s = _
    unfold execErase
    split
    · exact ⟨_, rfl⟩
    · split
      · exact ⟨_, rfl⟩
      · rename_i hi hz
        refine writeOperation_of_failsCheck (.inr ?_)
        have hz' : ¬ 256 ≤ size.toNat := hz
        simpa [State.failsCheck, hi, hz'] using h
  | reserved6 | reserved7 => exact ⟨statusError, rfl⟩
  | _ => cases h

theorem raisePrecond_of_fatal (code : BitVec 8) (h : s.config.assertFatal = true) :
    raisePrecond code s = .next s.halt := if_pos h

/-- Settles O58: of the ends of an instruction only the stop writes `halted`, and a failed check leads there. -/
theorem onlyPreconditionsHalt : Obligations.OnlyPreconditionsHalt := by
  refine ⟨fun i s t h hne => (exec_ends i s t h).halted.resolve_left hne, fun i s ha hf => ?_⟩
  obtain ⟨code, hexec⟩ := exec_of_failsCheck hf
  rw [hexec, raisePrecond_of_fatal code ha]
  rfl

/-! ### One response -/

/-- An answer that leaves the block idle and running is the one response of its request. -/
theorem answers_once {r : Response} (hp : t.position = .idle) (hh : t.halted = false)
    (ht : t.responses = s.responses ++ [r]) :
    (t.position = .idle ∧ t.halted = false → ∃ x, t.responses = s.responses ++ [x]) ∧
    (t.position ≠ .idle ∨ t.halted = true → t.responses = s.responses) := by
  simp [hp, hh, ht]

/-- Settles O60: the ends with a response leave the block idle and running, the others do not. -/
theorem completedRequestAnswersOnce : Obligations.CompletedRequestAnswersOnce := by
  intro q i s t hdec hp hh h
  cases exec_ends i s t h with
  | responded r hr _ _ ht =>
    rw [ht]
    exact answers_once (hr.position.trans hp) (hr.halted.trans hh) (by rw [← hr.responses]; rfl)
  | hung c hr _ _ _ hcall =>
    obtain ⟨-, -, hwait⟩ := bits_of_hung hcall
    simp [hwait, responses_of_hung hcall, hr.responses]
  | stopped _ _ ht => simp [ht]
  | returned r _ _ hwire _ => exact absurd hdec (hwire q)
  | ready b hr _ _ _ _ ht =>
    rw [ht]
    exact answers_once (hr.position.trans hp) (hr.halted.trans hh) (by rw [← hr.responses]; rfl)
  | closed a r hr _ _ hcall _ ht =>
    obtain ⟨-, hhalted, hposition⟩ := bits_of_answered hcall
    rw [ht]
    exact answers_once (hposition.trans (hr.position.trans hp)) (hhalted.trans (hr.halted.trans hh))
      (by rw [← hr.responses, ← responses_of_answered hcall]; rfl)

end Sys2Proof.Machine
end

section
/-! One transport call (R17, R50, R51, R226): where it leaves chip-select, what it records and yields, and how the
oracle answers it. -/

namespace Sys2Proof.Machine

variable {s t : State} {c : Call} {a : Answer} {bs : List Byte}

/-- Settles O18: the level after the call is that of its policy, whatever was answered. -/
theorem chipSelectFollowsPolicy : Obligations.ChipSelectFollowsPolicy := by
  intro c s t a bs h
  obtain ⟨-, hcs, -⟩ := transportCall_answered h
  rw [csAt_of_policy] at hcs
  refine ⟨fun hp => ?_, fun hp => ?_, fun hp => ?_, fun hp => ?_⟩ <;> rw [hp] at hcs <;> exact hcs

theorem receives_of_ne_rx (h : ∀ n p, c ≠ .rx n p) : c.receives = 0 := by
  cases c with
  | rx n p => exact absurd rfl (h n p)
  | tinit | tdeinit | tx => rfl

/-- Settles O19: it is the part of what an answered call can do that concerns the trace and the bytes. -/
theorem answeredCallIsRecorded : Obligations.AnsweredCallIsRecorded := by
  intro c s t a bs h
  obtain ⟨hframe, -, hlen, -⟩ := transportCall_answered h
  refine ⟨hframe, ?_, fun hc => List.eq_nil_of_length_eq_zero (hlen.trans (receives_of_ne_rx hc))⟩
  rintro n p rfl
  exact hlen

/-- A call to the oracle whose coming reply never comes (R226). -/
theorem oracle_hangs (hl : s.link = .oracle) (ha : (s.replyAt 0).answer = none) :
    transportCall c s = .hung
      { s with position := .waiting c, script := s.script.tail, draws := s.draws + 1, cs := csAtEntry c s.cs,
               up := oracleUp s.draws c none s.up, trace := s.trace ++ [⟨c, none, []⟩] } := by
  have h : linkCall c s = oracleCall c s := by simp [linkCall, hl]
  rw [transportCall, h, oracleCall, ha]
  rfl

theorem oracleUp_of_moves_bytes (d : Nat) (a : Option Answer) (up : Bool) (h₁ : c ≠ .tinit) (h₂ : c ≠ .tdeinit) :
    oracleUp d c a up = up := by
  cases c with
  | tinit => exact absurd rfl h₁
  | tdeinit => exact absurd rfl h₂
  | tx | rx => rfl

/-- Settles O20: the oracle hangs in the call, so what follows it is not reached. -/
theorem unansweredCallStopsTheOperation : Obligations.UnansweredCallStopsTheOperation := by
  intro c s k hl ha
  refine ⟨_, oracleUp_of_moves_bytes s.draws none s.up, ?_⟩
  rw [callThen, oracle_hangs hl ha]

/-- The coming reply of a script is its first. -/
theorem replyAt_zero_of_script {r : Reply} {rest : List Reply} (h : s.script = r :: rest) : s.replyAt 0 = r := by
  simp [State.replyAt, h]

/-- The first reply of the script answers a call to the oracle. -/
theorem callThen_script {b : List Byte} {rest : List Reply} {k : Answer → List Byte → State → Result}
    (hl : s.link = .oracle) (hs : s.script = ⟨some a, b⟩ :: rest) :
    callThen c s k = k a (oracleBytes s.draws c ⟨some a, b⟩)
      { s with script := rest, draws := s.draws + 1, cs := csAtExit c (csAtEntry c s.cs),
               up := oracleUp s.draws c (some a) s.up,
               trace := s.trace ++ [⟨c, some a, oracleBytes s.draws c ⟨some a, b⟩⟩] } := by
  have hr := replyAt_zero_of_script hs
  rw [callThen, oracle_answers (a := a) hl (by rw [hr]), hr, hs]
  rfl

/-- A reply with exactly the bytes asked for delivers them (R50, R235). -/
theorem replyBytes_of_length (d : Nat) {r : Reply} {n : Nat} (h : r.bytes.length = n) : replyBytes d r n = r.bytes := by
  subst h
  apply List.ext_getElem
  · simp [replyBytes]
  · intro j hj hj'
    simp [replyBytes, hj']

/-- Settles O21: the script's first two replies answer the two calls of the READ transaction. -/
theorem readPassesOracleRepliesThrough : Obligations.ReadPassesOracleRepliesThrough := by
  intro s addr size a₀ a₁ b₀ b₁ rest hl hinit hsize hbound hscript hlen
  rw [exec_read_of_checks hinit hsize hbound, readTransaction, callThen_script hl hscript]
  refine (callThen_script (rest := rest) (by exact hl) (by rfl)).trans ?_
  simp only [oracleBytes, replyBytes_of_length (r := ⟨some a₁, b₁⟩) _ hlen]
  simp [respond, State.answerHost, csAtExit, csAtEntry, Call.policy, Policy.releases, oracleUp]

end Sys2Proof.Machine
end

section
/-! The statuses of one and of two calls (R182), and what a wire instruction that ends leaves behind. -/

namespace Sys2Proof.Machine

theorem tr_eq (a : Answer) : tr a = if a = .ok then 0x00#8 else 0x02#8 := by
  cases a <;> rfl

theorem tr_or_two (a₀ a₁ : Answer) : tr a₀ ||| tr a₁ = if a₀ = .ok ∧ a₁ = .ok then 0x00#8 else 0x02#8 := by
  cases a₀ <;> cases a₁ <;> rfl

variable {s t : State} {items : List TraceItem}

/-- The return of a wire instruction after its transaction. -/
theorem returnPrim_of_transaction (r : PrimResult) (hframe : transactionFrame items s t) :
    t.returnPrim r = { s with script := (t.returnPrim r).script, draws := (t.returnPrim r).draws, cs := false,
                              wel := (t.returnPrim r).wel, mem := (t.returnPrim r).mem, txn := (t.returnPrim r).txn,
                              trace := s.trace ++ items, primResult := some r } := by
  unfold transactionFrame at hframe
  rw [hframe]
  rfl

/-- The return of a wire instruction whose transaction left the array alone. -/
theorem returnPrim_of_transaction_mem (r : PrimResult) (hframe : transactionFrame items s t) (hmem : t.mem = s.mem) :
    t.returnPrim r = { s with script := (t.returnPrim r).script, draws := (t.returnPrim r).draws, cs := false,
                              wel := (t.returnPrim r).wel, txn := (t.returnPrim r).txn,
                              trace := s.trace ++ items, primResult := some r } := by
  have h := returnPrim_of_transaction r hframe
  rw [State.returnPrim_mem, hmem] at h
  exact h

/-- The return of a wire instruction whose transaction left the array and the latch alone. -/
theorem returnPrim_of_transaction_mem_wel (r : PrimResult) (hframe : transactionFrame items s t) (hmem : t.mem = s.mem)
    (hwel : t.wel = s.wel) :
    t.returnPrim r = { s with script := (t.returnPrim r).script, draws := (t.returnPrim r).draws, cs := false,
                              txn := (t.returnPrim r).txn, trace := s.trace ++ items, primResult := some r } := by
  have h := returnPrim_of_transaction_mem r hframe hmem
  rw [State.returnPrim_wel, hwel] at h
  exact h

end Sys2Proof.Machine
end

section
/-! The format I wire instructions (R111, R113, R121) on either transport and on the reference device (R63, R65). -/

namespace Sys2Proof.Machine

theorem exec_wren (s : State) : exec .wren s = writeEnable s endPrimitive := rfl
theorem exec_wrdi (s : State) : exec .wrdi s = writeDisable s endPrimitive := rfl
theorem exec_rdsr (s : State) : exec .rdsr s = statusRead s endPrimitive := rfl

/-- Settles O22: the gate on its own, which leaves the array alone. -/
theorem wrenSendsOneByte : Obligations.WrenSendsOneByte := by
  intro s hserves
  obtain ⟨a, t, hrun, hframe, hmem, -⟩ := writeEnable_spec (k := 0) hserves
  refine ⟨a, t.returnPrim ⟨tr a, []⟩, by rw [exec_wren, hrun]; rfl, ?_⟩
  rw [← tr_eq]
  exact returnPrim_of_transaction_mem _ hframe hmem

/-- Settles O23: the gate on its own, which leaves the array alone. -/
theorem wrdiSendsOneByte : Obligations.WrdiSendsOneByte := by
  intro s hserves
  obtain ⟨a, t, hrun, hframe, hmem, -⟩ := writeDisable_spec (k := 0) hserves
  refine ⟨a, t.returnPrim ⟨tr a, []⟩, by rw [exec_wrdi, hrun]; rfl, ?_⟩
  rw [← tr_eq]
  exact returnPrim_of_transaction_mem _ hframe hmem

/-- Settles O24: the status read on its own, which leaves the array and the latch alone. -/
theorem rdsrReturnsTheReceivedByte : Obligations.RdsrReturnsTheReceivedByte := by
  intro s hserves
  obtain ⟨a₁, a₂, b, t, hrun, hframe, hmem, hwel, -⟩ := statusRead_spec (k := 0) hserves
  refine ⟨a₁, a₂, b, t.returnPrim ⟨tr a₁ ||| tr a₂, [b]⟩, by rw [exec_rdsr, hrun]; rfl, ?_⟩
  rw [← tr_or_two]
  exact returnPrim_of_transaction_mem_wel _ hframe hmem hwel

/-- The status register of the reference device, written out (R60, R63). -/
theorem deviceStatus_eq (wel : Bool) : deviceStatus wel = if wel then 0x02#8 else 0x00#8 := by
  cases wel <;> rfl

/-- Settles O29: every call on the device answers `ok`. -/
theorem latchFollowsTheGateOnTheDevice : Obligations.LatchFollowsTheGateOnTheDevice := by
  intro s hl hup hcs
  have hserves (k : Nat) : s.serves k = true := (serves_reference hl k).mpr ⟨hup, hcs⟩
  refine ⟨?_, ?_, ?_⟩
  · obtain ⟨a, t, hrun, -, hmem, -, -, hdevice⟩ := writeEnable_spec (hserves 1)
    obtain ⟨rfl, -, hwel⟩ := hdevice hl
    exact ⟨t.returnPrim ⟨tr .ok, []⟩, by rw [exec_wren, hrun]; rfl, hwel, hmem, rfl⟩
  · obtain ⟨a, t, hrun, -, hmem, -, -, hdevice⟩ := writeDisable_spec (hserves 1)
    obtain ⟨rfl, -, hwel⟩ := hdevice hl
    exact ⟨t.returnPrim ⟨tr .ok, []⟩, by rw [exec_wrdi, hrun]; rfl, hwel, hmem, rfl⟩
  · obtain ⟨a₁, a₂, b, t, hrun, -, hmem, hwel, -, hdevice⟩ := statusRead_spec (k := 0) (hserves 2)
    obtain ⟨rfl, rfl, -, rfl⟩ := hdevice hl
    refine ⟨t.returnPrim ⟨tr .ok ||| tr .ok, [deviceStatus s.wel]⟩, by rw [exec_rdsr, hrun]; rfl, hwel, hmem, ?_⟩
    rw [State.returnPrim_primResult, deviceStatus_eq]
    rfl

end Sys2Proof.Machine
end

section
/-! The wire instructions READ and WRITE in the three formats (R72 to R75, R92), and the codes without format (R83). -/

namespace Sys2Proof.Machine

variable {s : State}

theorem inMode_of_eq {m : Mode} {body : Result} (h : s.mode = m) : inMode m s body = body := if_pos h

theorem inMode_of_ne {m : Mode} {body : Result} (h : s.mode ≠ m) : inMode m s body = .refused .frameOfAnotherMode :=
  if_neg h

theorem exec_readA9 (a : BitVec 9) (n : Nat) (h : s.mode = .a9) :
    exec (.readA9 a n) s = readTransaction (a.setWidth 32) n s endPrimitive := inMode_of_eq h

theorem exec_readA16 (a : BitVec 16) (n : Nat) (h : s.mode = .a16) :
    exec (.readA16 a n) s = readTransaction (a.setWidth 32) n s endPrimitive := inMode_of_eq h

theorem exec_readA24 (a : BitVec 24) (n : Nat) (h : s.mode = .a24) :
    exec (.readA24 a n) s = readTransaction (a.setWidth 32) n s endPrimitive := inMode_of_eq h

theorem exec_writeA9 (a : BitVec 9) (data : List Byte) (h : s.mode = .a9) :
    exec (.writeA9 a data) s = writeTransaction (a.setWidth 32) data s endPrimitive := inMode_of_eq h

theorem exec_writeA16 (a : BitVec 16) (data : List Byte) (h : s.mode = .a16) :
    exec (.writeA16 a data) s = writeTransaction (a.setWidth 32) data s endPrimitive := inMode_of_eq h

theorem exec_writeA24 (a : BitVec 24) (data : List Byte) (h : s.mode = .a24) :
    exec (.writeA24 a data) s = writeTransaction (a.setWidth 32) data s endPrimitive := inMode_of_eq h

/-- Settles O27: every wire READ and WRITE tests the mode first. -/
theorem frameOfAnotherModeIsRefused : Obligations.FrameOfAnotherModeIsRefused := fun _ =>
  ⟨fun h => ⟨fun _ _ => inMode_of_ne h, fun _ _ => inMode_of_ne h⟩,
   fun h => ⟨fun _ _ => inMode_of_ne h, fun _ _ => inMode_of_ne h⟩,
   fun h => ⟨fun _ _ => inMode_of_ne h, fun _ _ => inMode_of_ne h⟩⟩

/-- Settles O28, by definition of their meanings. -/
theorem unusedCodesAreRefused : Obligations.UnusedCodesAreRefused := fun _ => ⟨rfl, rfl, rfl, rfl, rfl⟩

/-- The address that the reference device computes from a frame of the mode (R62, R64). -/
theorem txnAddr_own_frame (s : State) (i : FrameInstr) (addr : Word) (j : Nat) :
    txnAddr s.config.addrBits (frame s.mode i addr) j = some ((addr.toNat + j) % s.arraySize) := by
  have h := txnAddr_frame s.config.addrBits i addr [] j
  rw [List.append_nil] at h
  exact h

/-- A READ transaction run on its own (R75, R92), with the bytes that the reference device yields. -/
theorem wireRead_spec (addr : Word) (n : Nat) (hserves : s.serves 2 = true) :
    ∃ a₁ a₂ d t, readTransaction addr n s endPrimitive = .next t ∧ d.length = n ∧
      (s.link = .reference → a₁ = .ok ∧ a₂ = .ok ∧ ∀ j (hj : j < d.length), ∃ x,
        txnAddr s.config.addrBits (frame s.mode .read addr) j = some x ∧ d[j] = memRead s.mem x) ∧
      t = { s with script := t.script, draws := t.draws, cs := false, txn := t.txn,
                   trace := s.trace ++ [⟨.tx (frame s.mode .read addr) .assert, some a₁, []⟩,
                                        ⟨.rx n .release, some a₂, d⟩],
                   primResult := some ⟨tr a₁ ||| tr a₂, d⟩ } := by
  obtain ⟨a₁, a₂, d, t, hrun, hlen, hframe, hmem, hwel, -, hdevice⟩ := readTransaction_spec (k := 0) addr n hserves
  refine ⟨a₁, a₂, d, t.returnPrim ⟨tr a₁ ||| tr a₂, d⟩, by rw [hrun]; rfl, hlen, fun hl => ?_,
    returnPrim_of_transaction_mem_wel _ hframe hmem hwel⟩
  obtain ⟨h₁, h₂, -, rfl⟩ := hdevice hl
  refine ⟨h₁, h₂, fun j hj => ⟨_, txnAddr_own_frame s .read addr j, ?_⟩⟩
  rw [List.getElem_map, List.getElem_range]

/-- A WRITE transaction run on its own (R75, R92). -/
theorem wireWrite_spec (addr : Word) (data : List Byte) (hserves : s.serves 2 = true) :
    ∃ a₁ a₂ t, writeTransaction addr data s endPrimitive = .next t ∧
      t = { s with script := t.script, draws := t.draws, cs := false, wel := t.wel, mem := t.mem, txn := t.txn,
                   trace := s.trace ++ [⟨.tx (frame s.mode .write addr) .assert, some a₁, []⟩,
                                        ⟨.tx data .release, some a₂, []⟩],
                   primResult := some ⟨tr a₁ ||| tr a₂, []⟩ } := by
  obtain ⟨a₁, a₂, t, hrun, hframe, -⟩ := writeTransaction_spec (k := 0) addr data hserves
  exact ⟨a₁, a₂, t.returnPrim ⟨tr a₁ ||| tr a₂, []⟩, by rw [hrun]; rfl, returnPrim_of_transaction _ hframe⟩

/-- Settles O25: in each mode the format's READ is the READ transaction. -/
theorem wireReadIsOneTransaction : Obligations.WireReadIsOneTransaction := by
  refine fun s n hserves => ⟨fun a hm => ?_, fun a hm => ?_, fun a hm => ?_⟩
  · rw [exec_readA9 a n hm, ← hm]
    exact wireRead_spec _ n hserves
  · rw [exec_readA16 a n hm, ← hm]
    exact wireRead_spec _ n hserves
  · rw [exec_readA24 a n hm, ← hm]
    exact wireRead_spec _ n hserves

/-- Settles O26: in each mode the format's WRITE is the WRITE transaction. -/
theorem wireWriteIsOneTransaction : Obligations.WireWriteIsOneTransaction := by
  refine fun s data hserves => ⟨fun a hm => ?_, fun a hm => ?_, fun a hm => ?_⟩
  · rw [exec_writeA9 a data hm, ← hm]
    exact wireWrite_spec _ data hserves
  · rw [exec_writeA16 a data hm, ← hm]
    exact wireWrite_spec _ data hserves
  · rw [exec_writeA24 a data hm, ← hm]
    exact wireWrite_spec _ data hserves

/-- `m` is the array of `s` with byte `j` of the payload `data` stored at the address of its WRITE frame plus `j`
(R62, R64); where the payload reaches an address again, the later byte stands. -/
def storesPayload (s : State) (addr : Word) (data : List Byte) (m : Memory) : Prop :=
  (∀ x, (∀ j < data.length, txnAddr s.config.addrBits (frame s.mode .write addr) j ≠ some x) →
    memRead m x = memRead s.mem x) ∧
  ∀ j (hj : j < data.length) x, txnAddr s.config.addrBits (frame s.mode .write addr) j = some x →
    (∀ k, j < k → k < data.length → txnAddr s.config.addrBits (frame s.mode .write addr) k ≠ some x) →
    memRead m x = data[j]

/-- The WRITE transaction on the reference device (R62, R65), for every continuation. -/
theorem writeTransaction_device {addr : Word} {data : List Byte} (hl : s.link = .reference) (hup : s.up = true)
    (hcs : s.cs = false) (hwf : Memory.wf s.mem = true) :
    ∃ t, (∀ K, writeTransaction addr data s K = K statusOK [] t) ∧
      transactionFrame [⟨.tx (frame s.mode .write addr) .assert, some .ok, []⟩, ⟨.tx data .release, some .ok, []⟩] s t ∧
      t.wel = false ∧ (s.wel = false → t.mem = s.mem) ∧ (s.wel = true → storesPayload s addr data t.mem) := by
  obtain ⟨a₁, a₂, t, hrun, hframe, -, hdevice⟩ :=
    writeTransaction_spec (k := 0) addr data ((serves_reference hl _).mpr ⟨hup, hcs⟩)
  obtain ⟨rfl, rfl, -, hwel, hclear, hset⟩ := hdevice hl
  refine ⟨t, hrun, hframe, hwel, hclear, fun h => ⟨fun x hx => ?_, fun j hj x hx hlast => ?_⟩⟩
  · simp only [txnAddr_own_frame, ne_eq, Option.some.injEq] at hx
    exact (hset h x).1 hx
  · simp only [txnAddr_own_frame, ne_eq, Option.some.injEq] at hx hlast
    exact (hset h x).2 hwf j hj hx hlast

/-- Settles O30: each format's WRITE is the WRITE transaction with the address that its bits spell. -/
theorem wireWriteStoresOnlyWithTheLatch : Obligations.WireWriteStoresOnlyWithTheLatch := by
  intro s i addr data hform hl hup hcs hwf
  have hexec : exec i s = writeTransaction addr data s endPrimitive := by
    obtain ⟨a, rfl, rfl, hm⟩ | ⟨a, rfl, rfl, hm⟩ | ⟨a, rfl, rfl, hm⟩ := hform
    · exact exec_writeA9 a data hm
    · exact exec_writeA16 a data hm
    · exact exec_writeA24 a data hm
  obtain ⟨t, hrun, -, hwel, hclear, hset⟩ := writeTransaction_device (addr := addr) (data := data) hl hup hcs hwf
  refine ⟨t.returnPrim ⟨statusOK, []⟩, by rw [hexec, hrun]; rfl, hwel, hclear, fun x hx => ?_, fun h => (hset h).2⟩
  cases hlatch : s.wel with
  | false => exact congrArg (memRead · x) (hclear hlatch)
  | true => exact (hset hlatch).1 x hx

end Sys2Proof.Machine
end

section
/-! The lifecycle operations (R161, R163, R165) and the reserved codes (R185). -/

namespace Sys2Proof.Machine

variable {s t : State} {c : Call}

theorem exec_init_of_ready (h : s.initialized = true) : exec .init s = respond (statusResponse statusOK) s := if_pos h

theorem callThen_of_answered {a : Answer} {bs : List Byte} (h : transportCall c s = .answered a bs t)
    (k : Answer → List Byte → State → Result) : callThen c s k = k a bs t := by
  rw [callThen, h]

/-- An init whose TINIT fails ends there (R161, D25). -/
theorem exec_init_of_tinit_fail (h : s.initialized = false) (hcall : transportCall .tinit s = .answered .fail [] t) :
    exec .init s = respond (statusResponse statusErrorInit) t :=
  (if_neg (Bool.eq_false_iff.mp h)).trans (callThen_of_answered hcall _)

/-- An init whose TINIT answers `ok` goes on with the self-test (R161). -/
theorem exec_init_of_tinit_ok (h : s.initialized = false) (hcall : transportCall .tinit s = .answered .ok [] t) :
    exec .init s = selfTest t :=
  (if_neg (Bool.eq_false_iff.mp h)).trans (callThen_of_answered hcall _)

theorem exec_deinit_of_ready (h : s.initialized = true) :
    exec .deinit s = writeDisable s fun s₀ _ t =>
      callThen .tdeinit t fun a _ u => respond (statusResponse (s₀ ||| tr a)) (u.setInitialized false) := if_pos h

theorem exec_deinit_of_not_ready (h : s.initialized = false) :
    exec .deinit s = respond (statusResponse statusOK) s := if_neg (Bool.eq_false_iff.mp h)

/-- Settles O32: the bit is tested first. -/
theorem initWhenReadyDoesNothing : Obligations.InitWhenReadyDoesNothing := fun _ h => exec_init_of_ready h

/-- Settles O34: the bit is tested first. -/
theorem deinitWhenUninitializedDoesNothing : Obligations.DeinitWhenUninitializedDoesNothing :=
  fun _ h => exec_deinit_of_not_ready h

/-- Settles O35, by definition. -/
theorem isInitializedReportsTheFlag : Obligations.IsInitializedReportsTheFlag := fun _ => ⟨rfl, rfl⟩

/-- Settles O43: both codes raise the precondition failure. -/
theorem reservedCodesAnswerError : Obligations.ReservedCodesAnswerError :=
  fun s => ⟨raisePrecond_eq statusError s, raisePrecond_eq statusError s⟩

/-- `t` is `s` after the answer `a` to the lifecycle call `c`: only the trace, the oracle's place and `up` differ. -/
def lifecycleFrame (c : Call) (a : Answer) (s t : State) : Prop :=
  t = { s with script := t.script, draws := t.draws, up := t.up, trace := s.trace ++ [⟨c, some a, []⟩] }

/-- TINIT where the transport answers an init (R30, R61, R161). -/
theorem tinit_spec (h : s.servesInit = true) :
    ∃ a t, transportCall .tinit s = .answered a [] t ∧ lifecycleFrame .tinit a s t ∧
      (a = .ok → t.up = true ∧ t.serves 3 = true) ∧ (s.link = .reference → a = .ok) := by
  obtain hl | hl := link_cases s
  · have hs : s.serves 4 = true := by simpa [State.servesInit, State.serves, hl] using h
    have hreply := (serves_oracle hl _).mp hs
    obtain ⟨a, ha⟩ := hreply 0 (by omega)
    refine ⟨a, _, oracle_answers hl ha, rfl, ?_, fun h => nomatch hl.symm.trans h⟩
    rintro rfl
    refine ⟨rfl, (serves_oracle (by exact hl) _).mpr fun i hi => ?_⟩
    rw [replyAt_after (s := s) rfl rfl]
    exact hreply (i + 1) (by omega)
  · have hcs : s.cs = false := by simpa [State.servesInit, hl] using h
    refine ⟨.ok, (s.setUp true).record ⟨.tinit, some .ok, []⟩, ?_, rfl, fun _ => ⟨rfl, ?_⟩, fun _ => rfl⟩
    · simp [transportCall, linkCall, hl, referenceCall]
    · exact (serves_reference (by exact hl) _).mpr ⟨rfl, hcs⟩

/-- TDEINIT where the transport answers (R30, R61, R163). -/
theorem tdeinit_spec (h : s.serves 1 = true) :
    ∃ a t, transportCall .tdeinit s = .answered a [] t ∧ lifecycleFrame .tdeinit a s t ∧
      (s.link = .reference → a = .ok ∧ t.up = false ∧ t.wel = s.wel) := by
  obtain hl | hl := link_cases s
  · obtain ⟨a, ha⟩ := (serves_oracle hl _).mp h 0 (by omega)
    exact ⟨a, _, oracle_answers hl ha, rfl, fun h => nomatch hl.symm.trans h⟩
  · refine ⟨.ok, (s.setUp false).record ⟨.tdeinit, some .ok, []⟩, ?_, rfl, fun _ => ⟨rfl, rfl, rfl⟩⟩
    simp [transportCall, linkCall, hl, referenceCall]

/-- The one success path of the self-test (R161): all three answers `ok`, and bit 1 of the snapshot set. -/
abbrev selfTestPasses (a₀ a₁ a₂ : Answer) (b : Byte) : Prop := a₀ = .ok ∧ a₁ = .ok ∧ a₂ = .ok ∧ b.getLsbD 1 = true

/-- The test that ends the self-test in the model is that path. -/
theorem selfTestPasses_iff (a₀ a₁ a₂ : Answer) (b : Byte) :
    (tr a₀ = statusOK ∧ tr a₁ ||| tr a₂ = statusOK ∧ latchReadsSet [b] = true) ↔ selfTestPasses a₀ a₁ a₂ b := by
  have h₀ : tr a₀ = statusOK ↔ a₀ = .ok := by cases a₀ <;> decide
  have h₁ : tr a₁ ||| tr a₂ = statusOK ↔ a₁ = .ok ∧ a₂ = .ok := by cases a₁ <;> cases a₂ <;> decide
  rw [h₀, h₁, and_assoc]
  rfl

/-- The end of the self-test of a block that was not Ready: the bit is set and the status OK exactly if it passed. -/
theorem finishSelfTest_eq (a₀ a₁ a₂ : Answer) (b : Byte) (h : t.initialized = false) :
    finishSelfTest (tr a₀) (tr a₁ ||| tr a₂) [b] t =
      .next ((t.setInitialized (decide (selfTestPasses a₀ a₁ a₂ b))).answerHost
        ⟨if selfTestPasses a₀ a₁ a₂ b then 0x00#8 else 0x04#8, [], none⟩) := by
  simp only [finishSelfTest, selfTestPasses_iff]
  split
  · rename_i hpass
    rw [decide_eq_true hpass]
    rfl
  · rename_i hfail
    have hsame : t.setInitialized false = t := by rw [← h]; rfl
    rw [decide_eq_false hfail, hsame]
    rfl

/-- The self-test after a TINIT that answered `ok`, on a transport that serves it (R161, R183). -/
theorem selfTest_spec (hinit : s.initialized = false) (hserves : s.serves 3 = true) :
    ∃ a₀ a₁ a₂ b t,
      selfTest s = .next ((t.setInitialized (decide (selfTestPasses a₀ a₁ a₂ b))).answerHost
        ⟨if selfTestPasses a₀ a₁ a₂ b then 0x00#8 else 0x04#8, [], none⟩) ∧
      transactionFrame [⟨.tx [codeWREN] .both, some a₀, []⟩, ⟨.tx [codeRDSR] .assert, some a₁, []⟩,
                        ⟨.rx 1 .release, some a₂, [b]⟩] s t ∧
      t.mem = s.mem ∧
      (s.link = .reference → selfTestPasses a₀ a₁ a₂ b ∧ t.wel = true) := by
  obtain ⟨a₀, u, hgate, hgateFrame, hgateMem, hrest, -, hgateDevice⟩ := writeEnable_spec (k := 2) hserves
  obtain ⟨a₁, a₂, b, t, hread, hreadFrame, hreadMem, hreadWel, -, hreadDevice⟩ := statusRead_spec (k := 0) hrest
  have hframe := transactionFrame_trans hgateFrame hreadFrame
  refine ⟨a₀, a₁, a₂, b, t, ?_, hframe, hreadMem.trans hgateMem, fun hl => ?_⟩
  · rw [selfTest, hgate, hread, finishSelfTest_eq]
    rw [hframe]; exact hinit
  · obtain ⟨h₀, -, hwel⟩ := hgateDevice hl
    obtain ⟨h₁, h₂, -, hb⟩ := hreadDevice (by rw [hgateFrame]; exact hl)
    exact ⟨⟨h₀, h₁, h₂, by rw [hb, hwel]; rfl⟩, hreadWel.trans hwel⟩

/-- The two outcomes of an init of a block that is not Ready (R161), with what the reference device adds. -/
theorem exec_init_spec (hinit : s.initialized = false) (hserves : s.servesInit = true) : ∃ t, exec .init s = .next t ∧
    ((s.link ≠ .reference ∧
      t = { s with script := t.script, draws := t.draws, up := t.up,
                   trace := s.trace ++ [⟨.tinit, some .fail, []⟩],
                   responses := s.responses ++ [⟨0x04#8, [], none⟩] }) ∨
     ∃ a₀ a₁ a₂ b,
      (s.link = .reference → selfTestPasses a₀ a₁ a₂ b ∧ t.wel = true) ∧
      t = { s with initialized := decide (selfTestPasses a₀ a₁ a₂ b),
                   script := t.script, draws := t.draws, cs := false, up := true, wel := t.wel, txn := t.txn,
                   trace := s.trace ++ [⟨.tinit, some .ok, []⟩, ⟨.tx [0x06#8] .both, some a₀, []⟩,
                                        ⟨.tx [0x05#8] .assert, some a₁, []⟩, ⟨.rx 1 .release, some a₂, [b]⟩],
                   responses := s.responses ++
                     [⟨if selfTestPasses a₀ a₁ a₂ b then 0x00#8 else 0x04#8, [], none⟩] }) := by
  obtain ⟨a, t, hcall, hframe, hok, hdevice⟩ := tinit_spec hserves
  unfold lifecycleFrame at hframe
  cases a with
  | fail =>
    refine ⟨_, exec_init_of_tinit_fail hinit hcall, .inl ⟨fun hl => (nomatch hdevice hl), ?_⟩⟩
    rw [hframe]
    rfl
  | ok =>
    obtain ⟨hup, hrest⟩ := hok rfl
    rw [hup] at hframe
    obtain ⟨a₀, a₁, a₂, b, u, htest, htestFrame, hmem, htestDevice⟩ :=
      selfTest_spec (by rw [hframe]; exact hinit) hrest
    rw [exec_init_of_tinit_ok hinit hcall]
    refine ⟨_, htest, .inr ⟨a₀, a₁, a₂, b, fun hl => htestDevice (by rw [hframe]; exact hl), ?_⟩⟩
    unfold transactionFrame at htestFrame
    rw [hmem, hframe] at htestFrame
    rw [htestFrame]
    simp [State.answerHost, State.setInitialized, codeWREN, codeRDSR]

/-- Settles O31: without what the specification of init adds for the device. -/
theorem initRunsTheSelfTest : Obligations.InitRunsTheSelfTest := by
  intro s hinit hserves
  obtain ⟨t, hrun, ⟨-, hfail⟩ | ⟨a₀, a₁, a₂, b, -, htest⟩⟩ := exec_init_spec hinit hserves
  · exact ⟨t, hrun, .inl hfail⟩
  · exact ⟨t, hrun, .inr ⟨a₀, a₁, a₂, b, htest⟩⟩

/-- Settles O44: the device answers `ok` to all four calls, and reads its latch as set. -/
theorem initSucceedsOnTheDevice : Obligations.InitSucceedsOnTheDevice := by
  intro s hl hinit hcs
  obtain ⟨t, hrun, ⟨hno, -⟩ | ⟨a₀, a₁, a₂, b, hdevice, htest⟩⟩ :=
    exec_init_spec hinit (by simp [State.servesInit, hl, hcs])
  · exact absurd hl hno
  · obtain ⟨hpass, hwel⟩ := hdevice hl
    rw [decide_eq_true hpass, if_pos hpass] at htest
    exact ⟨t, hrun, by rw [htest], by rw [htest], hwel, by rw [htest], by rw [htest], by rw [htest]⟩

/-- A deinit from Ready on a transport that serves it (R163), with what the reference device adds. -/
theorem exec_deinit_spec (hinit : s.initialized = true) (hserves : s.serves 2 = true) :
    ∃ a₀ a₁ t, exec .deinit s = .next t ∧
      (s.link = .reference → a₀ = .ok ∧ a₁ = .ok ∧ t.up = false ∧ t.wel = false) ∧
      t = { s with initialized := false, script := t.script, draws := t.draws, cs := false, up := t.up, wel := t.wel,
                   txn := t.txn,
                   trace := s.trace ++ [⟨.tx [0x04#8] .both, some a₀, []⟩, ⟨.tdeinit, some a₁, []⟩],
                   responses := s.responses ++ [⟨if a₀ = .ok ∧ a₁ = .ok then 0x00#8 else 0x02#8, [], none⟩] } := by
  obtain ⟨a₀, u, hgate, hgateFrame, hmem, hrest, -, hgateDevice⟩ := writeDisable_spec (k := 1) hserves
  obtain ⟨a₁, v, hcall, hframe, hdevice⟩ := tdeinit_spec hrest
  refine ⟨a₀, a₁, (v.setInitialized false).answerHost (statusResponse (tr a₀ ||| tr a₁)), ?_, fun hl => ?_, ?_⟩
  · rw [exec_deinit_of_ready hinit, hgate, callThen_of_answered hcall]
    rfl
  · obtain ⟨h₀, -, hgateWel⟩ := hgateDevice hl
    obtain ⟨h₁, hup, hwel⟩ := hdevice (by rw [hgateFrame]; exact hl)
    exact ⟨h₀, h₁, hup, hwel.trans hgateWel⟩
  · unfold transactionFrame at hgateFrame
    unfold lifecycleFrame at hframe
    rw [hmem] at hgateFrame
    rw [hgateFrame] at hframe
    rw [tr_or_two, hframe]
    simp [State.answerHost, State.setInitialized, statusResponse, codeWRDI]

/-- Settles O33: the gate and TDEINIT, whatever each answers. -/
theorem deinitAlwaysClearsTheFlag : Obligations.DeinitAlwaysClearsTheFlag := by
  intro s hinit hserves
  obtain ⟨a₀, a₁, t, hrun, -, ht⟩ := exec_deinit_spec hinit hserves
  exact ⟨a₀, a₁, t, hrun, ht⟩

/-- Settles O45: both calls answer `ok` on the device. -/
theorem deinitClosesTheDevice : Obligations.DeinitClosesTheDevice := by
  intro s ⟨hl, hinit, hup, hcs⟩
  obtain ⟨a₀, a₁, t, hrun, hdevice, ht⟩ := exec_deinit_spec hinit ((serves_reference hl 2).mpr ⟨hup, hcs⟩)
  obtain ⟨rfl, rfl, hdown, hwel⟩ := hdevice hl
  exact ⟨t, hrun, by rw [ht], hdown, hwel, by rw [ht], by rw [ht], by rw [ht]; rfl⟩

end Sys2Proof.Machine
end

section
/-! The checks of the data operations in their order (R131, R141, R151, R187), and erase as a write (R150, R151). -/

namespace Sys2Proof.Machine

variable {s : State} {addr size : Word}

theorem pastEnd_of_lt (h : s.arraySize < addr.toNat + size.toNat) : s.pastEnd addr size = true := decide_eq_true h

/-- Settles O37: each check is reached past the ones before it. -/
theorem readChecksInOrder : Obligations.ReadChecksInOrder := by
  intro s addr size
  have hexec : exec (.read addr size) s = execRead addr size s := rfl
  rw [hexec, execRead]
  refine ⟨fun hinit => ?_, fun hinit hsize => ?_, fun hinit hsize hpast => ?_⟩
  · rw [if_pos hinit]
    exact raisePrecond_eq statusErrorInit s
  · rw [if_neg (by simp [hinit]), if_pos hsize]
    exact raisePrecond_eq statusError s
  · rw [if_neg (by simp [hinit]), if_neg hsize, if_pos (pastEnd_of_lt hpast)]
    exact raisePrecond_eq statusErrorAddr s

/-- A write that is not initialized (R141). -/
theorem writeOperation_of_not_ready (data : List Byte) (h : s.initialized = false) :
    writeOperation addr size data s = .next (s.afterPrecond statusErrorInit) :=
  (if_pos h).trans (raisePrecond_eq _ s)

/-- A write past the end with WRITE_BOUND_CHECK (R142). -/
theorem writeOperation_of_pastEnd (data : List Byte) (hinit : s.initialized = true)
    (hcheck : s.config.writeBoundCheck = true) (hpast : s.arraySize < addr.toNat + size.toNat) :
    writeOperation addr size data s = .next (s.afterPrecond statusErrorAddr) := by
  rw [writeOperation, if_neg (by simp [hinit]), if_pos ⟨hcheck, pastEnd_of_lt hpast⟩, raisePrecond_eq]

/-- Settles O39: the two checks of the write in turn. -/
theorem writeChecksInOrder : Obligations.WriteChecksInOrder := fun _ _ _ data =>
  ⟨writeOperation_of_not_ready data, writeOperation_of_pastEnd data⟩

/-- An erase below the limit is the write of its payload: the check that it makes first is also the write's first
(R151). -/
theorem exec_erase_of_lt_limit (h : size.toNat < 256) :
    exec (.erase addr size) s = writeOperation addr size (erasePayload size) s := by
  change execErase addr size s = _
  unfold execErase
  split
  · rw [writeOperation, if_pos ‹_›]
  · exact if_neg (Nat.not_le.mpr h)

/-- Settles O42: the payload of an erase is that list. -/
theorem eraseIsAWriteOfFF : Obligations.EraseIsAWriteOfFF := fun _ _ _ h => exec_erase_of_lt_limit h

/-- Settles O41: below the limit the checks are those of the write. -/
theorem eraseChecksInOrder : Obligations.EraseChecksInOrder := by
  intro s addr size
  refine ⟨fun hinit => ?_, fun hinit hlimit => ?_, fun hinit hlimit hcheck hpast => ?_⟩
  · exact (if_pos hinit).trans (raisePrecond_eq statusErrorInit s)
  · refine (if_neg (by simp [hinit])).trans ?_
    exact (if_pos hlimit).trans (raisePrecond_eq statusError s)
  · rw [exec_erase_of_lt_limit hlimit]
    exact writeOperation_of_pastEnd _ hinit hcheck hpast

theorem erasePayload_length (size : Word) : (erasePayload size).length = size.toNat := List.length_replicate

theorem eq_eraseValue_of_mem {b : Byte} (h : b ∈ erasePayload size) : b = 0xFF#8 := List.eq_of_mem_replicate h

/-- Settles O40: below the limit it is the write of its payload. -/
theorem eraseSendsOnlyFF : Obligations.EraseSendsOnlyFF := by
  intro s addr size hinit hlimit hbound hserves
  obtain ⟨a₀, a₁, a₂, u, hrun, hframe⟩ := writeOperation_spec (erasePayload size) hinit hbound hserves
  rw [tr_or_three, ← exec_erase_of_lt_limit hlimit] at hrun
  exact ⟨a₀, a₁, a₂, erasePayload size, _, hrun, erasePayload_length size, fun _ => eq_eraseValue_of_mem,
    answerHost_of_transactions _ hframe⟩

end Sys2Proof.Machine
end

section
/-! The data operations on the reference device (R62 to R66): what a write stores, what a read returns, and the round
trip. -/

namespace Sys2Proof.Machine

variable {s : State} {addr size : Word} {data : List Byte}

theorem storesPayload_of_eq {t : State} {m : Memory} (hconfig : t.config = s.config) (hmem : t.mem = s.mem)
    (h : storesPayload t addr data m) : storesPayload s addr data m := by
  unfold storesPayload State.mode at *
  rw [hconfig, hmem] at h
  exact h

/-- An accepted write on the device (R62, R65, R66): it answers OK, stores its payload, clears the latch, and leaves the
device ready. -/
theorem writeOperation_device (hready : s.readyOnDevice) (hwf : Memory.wf s.mem = true)
    (hbound : s.config.writeBoundCheck = true → addr.toNat + size.toNat ≤ s.arraySize) :
    ∃ t, writeOperation addr size data s = .next t ∧ t.responses = s.responses ++ [⟨0x00#8, [], none⟩] ∧
      t.wel = false ∧ t.config = s.config ∧ t.readyOnDevice ∧ storesPayload s addr data t.mem := by
  obtain ⟨hl, hinit, hup, hcs⟩ := hready
  obtain ⟨a, u, hgate, hgateFrame, hmem, -, -, hgateDevice⟩ :=
    writeEnable_spec (k := 0) ((serves_reference hl _).mpr ⟨hup, hcs⟩)
  obtain ⟨rfl, -, hset⟩ := hgateDevice hl
  unfold transactionFrame at hgateFrame
  obtain ⟨t, hrun, hframe, hwel, -, hstores⟩ := writeTransaction_device (s := u) (addr := addr) (data := data)
    (by rw [hgateFrame]; exact hl) (by rw [hgateFrame]; exact hup) (by rw [hgateFrame]) (by rw [hmem]; exact hwf)
  unfold transactionFrame at hframe
  refine ⟨t.answerHost (statusResponse statusOK), ?_, ?_, hwel, ?_, ⟨?_, ?_, ?_, ?_⟩, ?_⟩
  · rw [writeOperation_of_checks data hinit hbound, hgate, hrun]
    rfl
  · rw [hframe, hgateFrame]; rfl
  · rw [hframe, hgateFrame]; rfl
  · rw [hframe, hgateFrame]; exact hl
  · rw [hframe, hgateFrame]; exact hinit
  · rw [hframe, hgateFrame]; exact hup
  · rw [hframe]; rfl
  · exact storesPayload_of_eq (by rw [hgateFrame]) hmem (hstores hset)

/-- Settles O46: the gate sets the latch, so the WRITE transaction stores. -/
theorem writeStoresItsPayload : Obligations.WriteStoresItsPayload := by
  intro s addr size data hready hwf hbound
  obtain ⟨t, hrun, hresponses, hwel, -, -, hother, hpayload⟩ := writeOperation_device hready hwf hbound
  exact ⟨t, hrun, hresponses, hwel, hother, hpayload⟩

/-- A payload that stays below the end of the array is stored from its address on, each byte once (R64). -/
theorem storesPayload_in_range {m : Memory} (h : storesPayload s addr data m)
    (hrange : addr.toNat + data.length ≤ s.arraySize) :
    (∀ j (hj : j < data.length), memRead m (addr.toNat + j) = data[j]) ∧
    ∀ x, x < addr.toNat ∨ addr.toNat + data.length ≤ x → memRead m x = memRead s.mem x := by
  obtain ⟨hother, hpayload⟩ := h
  have hat (j : Nat) (hj : j < data.length) :
      txnAddr s.config.addrBits (frame s.mode .write addr) j = some (addr.toNat + j) := by
    rw [txnAddr_own_frame, Nat.mod_eq_of_lt (by omega)]
  refine ⟨fun j hj => hpayload j hj _ (hat j hj) fun k hjk hk => ?_, fun x hx => hother x fun j hj => ?_⟩
  · rw [hat k hk, ne_eq, Option.some.injEq]; omega
  · rw [hat j hj, ne_eq, Option.some.injEq]; omega

/-- An accepted read on the device (R62 to R64): the bytes of the array from the address on. -/
theorem exec_read_device (hready : s.readyOnDevice) (hsize : size ≠ 0#32)
    (hrange : addr.toNat + size.toNat ≤ s.arraySize) :
    ∃ t, exec (.read addr size) s = .next t ∧ t.mem = s.mem ∧ t.wel = s.wel ∧
      t.responses = s.responses ++
        [⟨0x00#8, (List.range size.toNat).map fun j => memRead s.mem (addr.toNat + j), none⟩] := by
  obtain ⟨hl, hinit, hup, hcs⟩ := hready
  obtain ⟨a₁, a₂, d, t, hrun, -, hframe, hmem, hwel, -, hdevice⟩ :=
    readTransaction_spec (k := 0) addr size.toNat ((serves_reference hl _).mpr ⟨hup, hcs⟩)
  obtain ⟨rfl, rfl, -, rfl⟩ := hdevice hl
  have hbytes : (List.range size.toNat).map (fun j => memRead s.mem ((addr.toNat + j) % s.arraySize)) =
      (List.range size.toNat).map fun j => memRead s.mem (addr.toNat + j) := by
    refine List.map_congr_left fun j hj => ?_
    rw [List.mem_range] at hj
    rw [Nat.mod_eq_of_lt (by omega)]
  rw [exec_read_of_checks hinit hsize hrange, hrun, hbytes]
  refine ⟨_, rfl, hmem, hwel, ?_⟩
  rw [hframe]
  rfl

/-- Settles O47: below the end of the array no address wraps. -/
theorem readReturnsTheArray : Obligations.ReadReturnsTheArray := by
  intro s addr size hready hsize hrange
  obtain ⟨t, hrun, hmem, hwel, hresponses⟩ := exec_read_device hready hsize hrange
  exact ⟨_, t, hrun, hmem, hwel, hresponses, by simp, fun j hj => by simp⟩

/-- Settles O48: an erase in range is the write of its payload in range. -/
theorem eraseFillsTheRange : Obligations.EraseFillsTheRange := by
  intro s addr size hready hwf hlimit hrange
  obtain ⟨t, hrun, hresponses, -, -, -, hstores⟩ :=
    writeOperation_device (data := erasePayload size) hready hwf fun _ => hrange
  obtain ⟨hin, hout⟩ := storesPayload_in_range hstores (by rwa [erasePayload_length])
  rw [erasePayload_length] at hout
  refine ⟨t, by rw [exec_erase_of_lt_limit hlimit, hrun], hresponses, fun x hlo hhi => ?_, hout⟩
  have hx := hin (x - addr.toNat) (by rw [erasePayload_length]; omega)
  rw [Nat.add_sub_cancel' hlo] at hx
  rw [hx]
  exact eq_eraseValue_of_mem (List.getElem_mem _)

/-- Settles O49: the write leaves the device ready for a read, which returns what the array then holds. -/
theorem writeThenReadReturnsTheData : Obligations.WriteThenReadReturnsTheData := by
  intro s addr size data hready hwf hlen hsize hrange
  obtain ⟨t, hwrite, hresponses, -, hconfig, hready', hstores⟩ :=
    writeOperation_device (data := data) hready hwf fun _ => hrange
  obtain ⟨hin, hout⟩ := storesPayload_in_range hstores (by rwa [hlen])
  have harray : t.arraySize = s.arraySize := by rw [State.arraySize, hconfig]; rfl
  obtain ⟨u, hread, hmem, -, hanswer⟩ := exec_read_device hready' hsize (by rwa [harray])
  have hbytes : (List.range size.toNat).map (fun j => memRead t.mem (addr.toNat + j)) = data := by
    refine List.ext_getElem (by simp [hlen]) fun j hj hj' => ?_
    rw [List.getElem_map, List.getElem_range, hin j hj']
  refine ⟨t, u, hwrite, hin, by rwa [← hlen], hread, hmem, ?_⟩
  rw [hanswer, hresponses, hbytes, List.append_assoc]
  rfl

end Sys2Proof.Machine
end
